-- ==== Sys2Proof/Word.lean ====
section
/-!
DEFINITION. The width of a limb and the type that holds one (00_scope.md R6, R10).
The narrowing to W bits and every bit field stand in Sys2Proof/Machine/Ops.lean.
-/
namespace Sys2Proof

/-- LIMB_WIDTH: a limb is 32 or 64 bits wide, chosen at build time (00_scope.md R6). -/
inductive Width where
  | w32
  | w64
deriving DecidableEq, Repr

/-- The number W of bits in a limb (00_scope.md R6). -/
def Width.bits : Width → Nat
  | .w32 => 32
  | .w64 => 64

/-- 2^W, the number of values a limb can hold (00_scope.md R10). -/
def Width.modulus (w : Width) : Nat := 2 ^ w.bits

/-- A W-bit value, held in the low W bits of 64. When W = 32 the upper 32 bits are 0: every step
keeps that (State.Inv; log entry 2). -/
abbrev Limb := BitVec 64

end Sys2Proof
end

