-- ==== Sys2Proof/Syntax.lean ====
section
/-!
DEFINITION. The commands (30_encoding.md R72), the register slots (10_state.md R20), the host
transactions (30_encoding.md R77), the turns that interleave them with the ENGINE's micro-steps
(70_reset_and_hazards.md R231) and the pseudo-instructions (30_encoding.md R79).
-/
namespace Sys2Proof

/-- The nine commands, one constructor per row of spec/opcode_table.json. A command has no operand
fields: its operands are registers (30_encoding.md R71). -/
inductive Instr where
  | adc
  | sbb
  | add
  | sub
  | ladd
  | lsub
  | lsel
  | lcopy
  | lzero
deriving DecidableEq, Repr

/-- The sixteen slots of the register port by name (10_state.md R20). -/
inductive Slot where
  | cmd
  | status
  | a
  | b
  | cin
  | res
  | cout
  | rptr
  | aptr
  | bptr
  | n
  | k
  | idx
  | cfg
  | memsz
  | reserved
deriving DecidableEq, Repr

/-- A host transaction (30_encoding.md R77). Values and limb addresses are W-bit numbers; the ports
take the low W bits of what stands here (log entry 2). -/
inductive HostOp where
  /-- `wr REG, imm`: write one whole slot. -/
  | regWrite (slot : Slot) (v : Limb)
  /-- `rd REG`: read one whole slot. -/
  | regRead (slot : Slot)
  /-- `mwr addr, imm`: write one limb of LM. -/
  | memWrite (p : Limb) (v : Limb)
  /-- `mrd addr`: read one limb of LM. -/
  | memRead (p : Limb)
  /-- `reset`: the block's reset input. -/
  | reset
deriving DecidableEq, Repr

/-- One turn of the schedule: a host transaction, and how many ENGINE micro-steps are taken after it
and before the HOST's next transaction (70_reset_and_hazards.md R231; log entry 4). -/
structure Turn where
  op : HostOp
  grant : Nat
deriving DecidableEq, Repr

/-- A line of a HOST program: a transaction, or `wait` (30_encoding.md R79). -/
inductive HostLine where
  | op (t : HostOp)
  | wait
deriving DecidableEq, Repr

/-- The pseudo-instructions of 30_encoding.md R79; `cmd i` is the bare mnemonic that only writes the
command word. -/
inductive Pseudo where
  | cmd (i : Instr)
  | adc (a b c : Limb)
  | sbb (a b c : Limb)
  | add (a b : Limb)
  | sub (a b : Limb)
  | ladd (r a b n : Limb)
  | lsub (r a b n : Limb)
  | lsel (r t n k i : Limb)
  | lcopy (r a n : Limb)
  | lzero (r n : Limb)
deriving DecidableEq, Repr

end Sys2Proof
end

