-- ==== Sys2Proof/Decode.lean ====
section
/-!
DEFINITION. The command word (30_encoding.md R70 to R73): the decoder, the encoder, the slot numbers
of 10_state.md R20 and the host's reading of an opcode-table word.
-/
namespace Sys2Proof

/-- Why a command word is illegal (30_encoding.md R73). Both give ERR = ILLEGAL. -/
inductive Illegal where
  /-- A bit of RSV, bits [W-1:8], is set. -/
  | reservedBits
  /-- OPCODE, bits [7:0], is none of the nine. -/
  | reservedOpcode
deriving DecidableEq, Repr

/-- The opcode map (30_encoding.md R72). -/
def decodeOpcode (op : BitVec 8) : Option Instr :=
  match op.toNat with
  | 0x01 => some .adc
  | 0x02 => some .sbb
  | 0x03 => some .add
  | 0x04 => some .sub
  | 0x10 => some .ladd
  | 0x11 => some .lsub
  | 0x20 => some .lsel
  | 0x30 => some .lcopy
  | 0x31 => some .lzero
  | _ => none

/-- Decode a command word: RSV must be 0 and OPCODE one of the nine (30_encoding.md R70, R73). It
reads nothing but the word. -/
def decode (v : Limb) : Except Illegal Instr :=
  if v >>> 8 ≠ 0#64 then .error .reservedBits
  else
    match decodeOpcode (v.setWidth 8) with
    | some i => .ok i
    | none => .error .reservedOpcode

/-- The opcode of a command (30_encoding.md R72). -/
def Instr.opcode : Instr → BitVec 8
  | .adc => 0x01#8
  | .sbb => 0x02#8
  | .add => 0x03#8
  | .sub => 0x04#8
  | .ladd => 0x10#8
  | .lsub => 0x11#8
  | .lsel => 0x20#8
  | .lcopy => 0x30#8
  | .lzero => 0x31#8

/-- The command word of a command: its opcode zero-extended (30_encoding.md R72). -/
def encode (i : Instr) : Limb := i.opcode.setWidth 64

/-- The instruction read from a word of spec/opcode_table.json whose low `nbits` bits are those of
`w`. A command word is one register write (30_encoding.md R70), so its bits above `nbits` are 0. A
number that no 64-bit value holds is no command word. -/
def decodeTableWord (nbits w : Nat) : Option Instr :=
  if w % 2 ^ nbits < 2 ^ 64 then
    match decode (BitVec.ofNat 64 (w % 2 ^ nbits)) with
    | .ok i => some i
    | .error _ => none
  else none

/-- The number of a slot of the register port (10_state.md R20). -/
def Slot.number : Slot → Fin 16
  | .cmd => 0
  | .status => 1
  | .a => 2
  | .b => 3
  | .cin => 4
  | .res => 5
  | .cout => 6
  | .rptr => 7
  | .aptr => 8
  | .bptr => 9
  | .n => 10
  | .k => 11
  | .idx => 12
  | .cfg => 13
  | .memsz => 14
  | .reserved => 15

/-- The slot of a number of the register port (10_state.md R20). -/
def Slot.ofNumber (s : Fin 16) : Slot :=
  match s.val with
  | 0 => .cmd
  | 1 => .status
  | 2 => .a
  | 3 => .b
  | 4 => .cin
  | 5 => .res
  | 6 => .cout
  | 7 => .rptr
  | 8 => .aptr
  | 9 => .bptr
  | 10 => .n
  | 11 => .k
  | 12 => .idx
  | 13 => .cfg
  | 14 => .memsz
  | _ => .reserved

end Sys2Proof
end

