-- ==== Sys2Proof/Config.lean ====
section
/-!
DEFINITION. The build-time parameters of a block (00_scope.md R6 to R8, 92_eei_decisions.md D2 to D4).
A State carries them as data that no step changes, so every statement over all states covers every
build. LAT (R9) and HOST_BYTE_ORDER (20_memory.md R51) are parameters that no rule uses; the model
has no field for them (log entry 13).
-/
namespace Sys2Proof

/-- BACKEND: the implementation of the word adder/subtractor, visible only in CFG.BACKEND
(00_scope.md R7). -/
inductive Backend where
  | builtin
  | intrinsic
  | fallback
deriving DecidableEq, Repr

/-- The parameters a block is built with: W, BACKEND and MEM_LIMBS. -/
structure Config where
  width : Width
  backend : Backend
  memLimbs : Nat
deriving DecidableEq, Repr

/-- DESIGN CHOICE (unsafe, log entry 3): the build that State.reset shows, W = 64, BUILTIN and
MEM_LIMBS = 16. The spec leaves all three open; no statement rests on these values. -/
def Config.built : Config := ⟨.w64, .builtin, 16⟩

end Sys2Proof
end

