-- ==== Sys2Proof/Machine/State.lean ====
section
/-!
DEFINITION. The state of the limb core (10_state.md, 20_memory.md), its faults and refusals, and the
state after power-up (70_reset_and_hazards.md R220, R223).
-/
namespace Sys2Proof.Machine

/-- STATUS.ERR (10_state.md R24, 60_exceptions.md R190): the verdict of the most recent CMD write that
was not ignored. Codes 5 to 15 are never produced, so they have no constructor. -/
inductive Err where
  | none
  | illegal
  | len
  | range
  | index
deriving DecidableEq, Repr

/-- The ENGINE's phase (10_state.md R36). -/
inductive Phase where
  | idle
  | run
  | zero
  | scan
deriving DecidableEq, Repr

/-- An event of the access trace: an access of the ENGINE to the limb at address `p`
(00_scope.md R11, 20_memory.md R58). -/
inductive Access where
  | rd (p : Nat)
  | wr (p : Nat)
deriving DecidableEq, Repr

/-- LM: the limbs that hold a value, with their limb addresses. A limb never written since power-up is
not listed and holds no value (20_memory.md R50, R55). The unit of addressing is the limb: no byte of
a limb can be reached (20_memory.md R51, R52; log entry 1). -/
abbrev Memory := List (Nat × Limb)

/-- The canonical form: addresses strictly rise, so equal memories are equal lists. An unlisted address
reads as no value, which no entry can equal. -/
abbrev Memory.wf (m : Memory) : Prop := (m.map Prod.fst).Pairwise (· < ·)

/-- The ENGINE's hidden state (10_state.md R36, R37). `op = none` stands for the reset value 0, which
is no opcode (log entry 12). -/
structure Engine where
  /-- The bit STATUS.BUSY. -/
  busy : Bool
  /-- The latched opcode. -/
  op : Option Instr
  /-- RPTR, APTR, BPTR, N, K and IDX as they were at accept. -/
  lr : Limb
  la : Limb
  lb : Limb
  ln : Limb
  lk : Limb
  lidx : Limb
  /-- A, B and CIN as they were at accept. -/
  wa : Limb
  wb : Limb
  wc : Bool
  phase : Phase
  /-- The limb position. -/
  i : Nat
  /-- The table entry. -/
  e : Nat
  /-- The internal carry/borrow bit. -/
  c : Bool
deriving DecidableEq, Repr

/-- The whole state. CMD, CFG, MEMSZ and slot 15 need no field beyond `cfg`: CMD and slot 15 read 0,
CFG and MEMSZ are the build's constants (10_state.md R23, R31, R32, R35). -/
structure State where
  /-- The build's parameters, read through CFG and MEMSZ; no step changes them. -/
  cfg : Config
  a : Limb
  b : Limb
  cin : Bool
  res : Limb
  cout : Bool
  rptr : Limb
  aptr : Limb
  bptr : Limb
  n : Limb
  k : Limb
  idx : Limb
  /-- STATUS.ERR. -/
  err : Err
  /-- STATUS.OVR. -/
  ovr : Bool
  eng : Engine
  lm : Memory
  /-- The ENGINE's accesses to LM since power-up, oldest first (20_memory.md R58; log entry 9). -/
  trace : List Access
  /-- The model's own: the value the HOST's latest read returned (log entry 10). -/
  returned : Option Limb
  /-- The model's own: the HOST's turns still to come, in issue order (log entry 4). -/
  inputs : List Turn
  /-- The model's own: the ENGINE micro-steps that the turn being taken allows (log entry 4). -/
  grant : Nat
deriving DecidableEq, Repr

/-- What stops the machine (60_exceptions.md R201). -/
inductive Fault where
  /-- HOST_RACE, raised by the memory port (hostMemRead, hostMemWrite): a HOST memory access while
  BUSY = 1 to a limb in the running command's footprint. Safe: the hardware's behaviour is undefined
  there (20_memory.md R60). -/
  | hostRace
  /-- UNINIT_READ, raised by the memory port (hostMemRead) and by the ENGINE (engineRead): a read of a
  limb never written since power-up. Safe: the hardware returns unspecified bits
  (20_memory.md R55). -/
  | uninitRead
deriving DecidableEq, Repr

/-- Why the model gives no meaning. Every command has its meaning, so nothing answers with it. -/
inductive Refusal where
  /-- An arm of exec without a meaning; no arm is left. Safe: the model stops. -/
  | notModelled (mnemonic : String)
deriving DecidableEq, Repr

/-- The ENGINE after reset: busy = 0, phase = IDLE and every other field 0
(70_reset_and_hazards.md R220). -/
def Engine.reset : Engine where
  busy := false
  op := none
  lr := 0#64
  la := 0#64
  lb := 0#64
  ln := 0#64
  lk := 0#64
  lidx := 0#64
  wa := 0#64
  wb := 0#64
  wc := false
  phase := .idle
  i := 0
  e := 0
  c := false

/-- A block of the given build after power-up: the reset values of 70_reset_and_hazards.md R220, no
limb of LM holding a value (20_memory.md R55, R223), no access made, and no turn of the HOST to come
(log entries 5, 9 and 10). -/
def State.powerUp (cfg : Config) : State where
  cfg := cfg
  a := 0#64
  b := 0#64
  cin := false
  res := 0#64
  cout := false
  rptr := 0#64
  aptr := 0#64
  bptr := 0#64
  n := 0#64
  k := 0#64
  idx := 0#64
  err := .none
  ovr := false
  eng := Engine.reset
  lm := []
  trace := []
  returned := none
  inputs := []
  grant := 0

/-- The machine right after power-up, for the build Config.built (log entry 3). -/
def State.reset : State := State.powerUp Config.built

end Sys2Proof.Machine
end

