-- ==== Sys2Proof/Machine/Ops.lean ====
section
/-!
DEFINITION. The named operations over limbs, registers, LM, the access trace and the ENGINE's
lifecycle: narrowing (00_scope.md R10), the values a register read returns (10_state.md R20 to R41),
reads and writes of LM (20_memory.md R50, R55, R58), the rejection of a command word
(60_exceptions.md R193), which is all that the block has for taking an exception (R200: no trap and no
return), its acceptance (30_encoding.md R76) and completion, and reset (70_reset_and_hazards.md R220).
-/
namespace Sys2Proof.Machine

/-- What a step, a command or a micro-step answers. -/
abbrev Result := Host.Outcome State Fault Refusal

/-- Go on with `f` from a next state; a fault or a refusal stops. -/
def andThen (r : Result) (f : State → Result) : Result :=
  match r with
  | .next s => f s
  | .fault e => .fault e
  | .refused e => .refused e

/-! ### Limbs -/

/-- `x mod 2^W` as a limb (00_scope.md R10). -/
def narrow (w : Width) (x : Nat) : Limb := BitVec.ofNat 64 (x % w.modulus)

/-- `zext_W` of one bit (10_state.md R27, R29). -/
def zextBit (b : Bool) : Limb := BitVec.ofNat 64 b.toNat

/-! ### LM -/

/-- The value of the limb at address `p`, if one was ever written (20_memory.md R55). -/
def Memory.read : Memory → Nat → Option Limb
  | [], _ => none
  | (q, u) :: m, p => if p = q then some u else Memory.read m p

/-- LM[p] <- v, keeping the canonical form. -/
def Memory.write : Memory → Nat → Limb → Memory
  | [], p, v => [(p, v)]
  | (q, u) :: m, p, v =>
    if p < q then (p, v) :: (q, u) :: m
    else if p = q then (p, v) :: m
    else (q, u) :: Memory.write m p v

/-- An ENGINE read `MemRead(p, 1)`: it appends Rd(p) to the trace and hands the limb to `f`; a limb
never written is Fault(UNINIT_READ) (00_scope.md R11, 20_memory.md R55, R58). -/
def engineRead (p : Nat) (s : State) (f : Limb → State → Result) : Result :=
  match s.lm.read p with
  | some v => f v { s with trace := s.trace ++ [.rd p] }
  | none => .fault .uninitRead

/-- An ENGINE write `MemWrite(p, 1, v)`: it stores the limb and appends Wr(p) to the trace
(00_scope.md R11, 20_memory.md R58). -/
def engineWrite (p : Nat) (v : Limb) (s : State) : State :=
  { s with lm := s.lm.write p v, trace := s.trace ++ [.wr p] }

/-- `int(base, n)`: the value of the n-limb little-endian array at `base` (00_scope.md R11). A limb
that holds no value counts as 0 here; a statement that uses it says which limbs are written. -/
def Memory.int (w : Width) (m : Memory) (base : Nat) : Nat → Nat
  | 0 => 0
  | n + 1 => Memory.int w m base n + ((m.read (base + n)).getD 0#64).toNat * w.modulus ^ n

/-! ### Register values -/

/-- The code of STATUS.ERR (60_exceptions.md R190). -/
def Err.code : Err → Nat
  | .none => 0
  | .illegal => 1
  | .len => 2
  | .range => 3
  | .index => 4

/-- The code of CFG.BACKEND (10_state.md R31). -/
def backendCode : Backend → Nat
  | .builtin => 0
  | .intrinsic => 1
  | .fallback => 2

/-- STATUS: BUSY in bit 0, ERR in bits [7:4], OVR in bit 8, every other bit 0 (10_state.md R24). -/
def statusWord (s : State) : Limb :=
  BitVec.ofNat 64 (s.eng.busy.toNat + s.err.code * 2 ^ 4 + s.ovr.toNat * 2 ^ 8)

/-- CFG: W in bits [7:0], BACKEND in bits [9:8], every other bit 0 (10_state.md R31). -/
def cfgWord (cfg : Config) : Limb :=
  BitVec.ofNat 64 (cfg.width.bits + backendCode cfg.backend * 2 ^ 8)

/-- The value a HOST read of a slot returns (10_state.md R20, R23 to R35, R41). -/
def readSlot (s : State) : Slot → Limb
  | .cmd => 0#64
  | .status => statusWord s
  | .a => s.a
  | .b => s.b
  | .cin => zextBit s.cin
  | .res => s.res
  | .cout => zextBit s.cout
  | .rptr => s.rptr
  | .aptr => s.aptr
  | .bptr => s.bptr
  | .n => s.n
  | .k => s.k
  | .idx => s.idx
  | .cfg => cfgWord s.cfg
  | .memsz => narrow s.cfg.width s.cfg.memLimbs
  | .reserved => 0#64

/-- The byte offset of a slot from the block's register base, for a HOST with byte addresses
(20_memory.md R56). No rule depends on it. -/
def slotByteOffset (w : Width) (slot : Slot) : Nat := slot.number.val * (w.bits / 8)

/-- The byte offset of limb `p` from the block's memory base, for a HOST with byte addresses
(20_memory.md R56). No rule depends on it. -/
def limbByteOffset (w : Width) (p : Nat) : Nat := p * (w.bits / 8)

/-! ### The lifecycle of a command -/

/-- A HOST register write ignored because BUSY = 1: OVR is set (10_state.md R40). -/
def overrun (s : State) : State := { s with ovr := true }

/-- `raise CmdError(code)`: the command word is rejected; ERR takes the code and nothing else changes
(60_exceptions.md R193). -/
def cmdError (code : Err) (s : State) : State := { s with err := code }

/-- The accepted branch of 30_encoding.md R76: latch the operands, clear i, e and c, enter the
command's first phase, clear ERR and set busy. -/
def accept (op : Instr) (first : Phase) (s : State) : State :=
  { s with
    err := .none
    eng :=
      { busy := true
        op := some op
        lr := s.rptr
        la := s.aptr
        lb := s.bptr
        ln := s.n
        lk := s.k
        lidx := s.idx
        wa := s.a
        wb := s.b
        wc := s.cin
        phase := first
        i := 0
        e := 0
        c := false } }

/-- A command word written to CMD, decoded as `op`, whose checks give `verdict` (30_encoding.md R76):
ignored with OVR while busy, else rejected with the code, else accepted. -/
def issue (op : Instr) (first : Phase) (verdict : Err) (s : State) : State :=
  if s.eng.busy then overrun s
  else
    match verdict with
    | .none => accept op first s
    | .illegal => cmdError .illegal s
    | .len => cmdError .len s
    | .range => cmdError .range s
    | .index => cmdError .index s

/-- An illegal command word written to CMD (30_encoding.md R76, 60_exceptions.md R198, R199). -/
def issueIllegal (s : State) : State :=
  if s.eng.busy then overrun s else cmdError .illegal s

/-- `busy <- 0; phase <- IDLE`: the end of a command's last micro-step (10_state.md R36). -/
def complete (s : State) : State :=
  { s with eng := { s.eng with busy := false, phase := .idle } }

/-- The Reset transaction: every register slot and the ENGINE take their reset values; LM and the
record of written limbs, which is LM's list, stay (70_reset_and_hazards.md R220, R221). The access
trace, the value last returned and the schedule are no state of the block and stay too
(log entries 4, 9 and 10). -/
def resetBlock (s : State) : State :=
  { State.powerUp s.cfg with
    lm := s.lm
    trace := s.trace
    returned := s.returned
    inputs := s.inputs
    grant := s.grant }

end Sys2Proof.Machine
end

