-- ==== Sys2Proof/Machine/Flags.lean ====
section
/-!
DEFINITION. The word primitives and their carry and borrow bits (40_word_ops.md R100 to R103), which
every BACKEND computes alike (00_scope.md R7), and the FALLBACK backend's own form of them (R102). The
model runs on R100 and R101 (40_word_ops.md R113).
-/
namespace Sys2Proof.Machine

/-- `adc_W(a, b, c)`: the sum mod 2^W and the carry out (40_word_ops.md R100). -/
def adcW (w : Width) (a b : Limb) (c : Bool) : Limb × Bool :=
  let t := a.toNat + b.toNat + c.toNat
  (narrow w t, decide (w.modulus ≤ t))

/-- `sbb_W(a, b, c)`: the difference mod 2^W and the borrow out, which is 1 exactly when the true
difference is negative (40_word_ops.md R101). -/
def sbbW (w : Width) (a b : Limb) (c : Bool) : Limb × Bool :=
  let t : Int := (a.toNat : Int) - (b.toNat : Int) - (c.toNat : Int)
  (narrow w (t % (w.modulus : Int)).toNat, decide (t < 0))

/-- An exact sum or difference in the DoubleLimb domain of the FALLBACK backend, mod 2^(2W)
(40_word_ops.md R102). -/
def doubleLimb (w : Width) (t : Int) : Nat := (t % (2 : Int) ^ (2 * w.bits)).toNat

/-- `adc_W` as FALLBACK computes it: low W bits and bit W of the 2W-bit sum (40_word_ops.md R102). -/
def adcFallback (w : Width) (a b : Limb) (c : Bool) : Limb × Bool :=
  let d := doubleLimb w ((a.toNat : Int) + (b.toNat : Int) + (c.toNat : Int))
  (narrow w d, d.testBit w.bits)

/-- `sbb_W` as FALLBACK computes it: low W bits and bit W of the 2W-bit difference
(40_word_ops.md R102, 90_conflicts.md C4). -/
def sbbFallback (w : Width) (a b : Limb) (c : Bool) : Limb × Bool :=
  let d := doubleLimb w ((a.toNat : Int) - (b.toNat : Int) - (c.toNat : Int))
  (narrow w d, d.testBit w.bits)

end Sys2Proof.Machine
end

