-- ==== Sys2Proof/Machine/ArraySteps.lean ====
section
/-!
DEFINITION. The micro-step of LADD and LSUB (41_array_addsub.md R132): limb i of both sources is read
before limb i of the destination is written, the internal carry threads into limb i + 1, and the last
step copies it to COUT and completes the command. RES is not written.
-/
namespace Sys2Proof.Machine

/-- The micro-step of 41_array_addsub.md R132 with the word primitive `prim`. It is enabled while
i < ln. -/
def addSubStep (prim : Width → Limb → Limb → Bool → Limb × Bool) (s : State) : Result :=
  if s.eng.i < s.eng.ln.toNat then
    engineRead (s.eng.la.toNat + s.eng.i) s fun x s =>
    engineRead (s.eng.lb.toNat + s.eng.i) s fun y s =>
      let r := prim s.cfg.width x y s.eng.c
      let s := engineWrite (s.eng.lr.toNat + s.eng.i) r.1 s
      let s := { s with eng := { s.eng with c := r.2, i := s.eng.i + 1 } }
      .next (if s.eng.i = s.eng.ln.toNat then complete { s with cout := s.eng.c } else s)
  else .next s

/-- LADD's micro-step (41_array_addsub.md R132, R135). -/
def laddStep (s : State) : Result := addSubStep adcW s

/-- LSUB's micro-step (41_array_addsub.md R132, R136). -/
def lsubStep (s : State) : Result := addSubStep sbbW s

end Sys2Proof.Machine
end

