-- ==== Sys2Proof/Machine/CopyZeroSteps.lean ====
section
/-!
DEFINITION. The micro-steps of LCOPY, a forward copy (43_copy_zero.md R171, R172), and of LZERO (R176).
-/
namespace Sys2Proof.Machine

/-- `i <- i + 1`, and the completion when i = ln (43_copy_zero.md R172, R176). -/
def copyZeroAdvance (s : State) : State :=
  let s := { s with eng := { s.eng with i := s.eng.i + 1 } }
  if s.eng.i = s.eng.ln.toNat then complete s else s

/-- LCOPY's micro-step, enabled while i < ln (43_copy_zero.md R172). -/
def lcopyStep (s : State) : Result :=
  if s.eng.i < s.eng.ln.toNat then
    engineRead (s.eng.la.toNat + s.eng.i) s fun v s =>
      .next (copyZeroAdvance (engineWrite (s.eng.lr.toNat + s.eng.i) v s))
  else .next s

/-- LZERO's micro-step, enabled while i < ln (43_copy_zero.md R176). -/
def lzeroStep (s : State) : Result :=
  if s.eng.i < s.eng.ln.toNat then
    .next (copyZeroAdvance (engineWrite (s.eng.lr.toNat + s.eng.i) 0#64 s))
  else .next s

end Sys2Proof.Machine
end

