-- ==== Sys2Proof/Machine/Operands.lean ====
section
/-!
DEFINITION. The operand side of a command: the arrays it names (00_scope.md R12), the accept-time
checks LEN, RANGE and INDEX in their order (60_exceptions.md R192 to R196), and the footprint of the
running command (20_memory.md R57).
-/
namespace Sys2Proof.Machine

/-- `p` lies in [base, base + len). -/
def inArray (base len p : Nat) : Bool := decide (base ≤ p) && decide (p < base + len)

/-- The array [base, base + len) lies in LM, over the unbounded naturals (60_exceptions.md R195). -/
def fitsLm (s : State) (base : Limb) (len : Nat) : Bool := decide (base.toNat + len ≤ s.cfg.memLimbs)

/-- LEN, then RANGE (60_exceptions.md R192, R194, R195): the verdict of an array command whose range
check is `range`, before any INDEX check. -/
def arrayVerdict (range : Bool) (s : State) : Err :=
  if s.n = 0#64 then .len else if range then .none else .range

/-- The checks of LADD and LSUB (60_exceptions.md R195). -/
def addSubVerdict (s : State) : Err :=
  arrayVerdict (fitsLm s s.rptr s.n.toNat && fitsLm s s.aptr s.n.toNat && fitsLm s s.bptr s.n.toNat) s

/-- The checks of LSEL: INDEX comes after LEN and RANGE (60_exceptions.md R192, R195, R196). -/
def selectVerdict (s : State) : Err :=
  match arrayVerdict (fitsLm s s.rptr s.n.toNat && fitsLm s s.aptr (s.n.toNat * s.k.toNat)) s with
  | .none => if s.k.toNat ≤ s.idx.toNat then .index else .none
  | code => code

/-- The checks of LCOPY (60_exceptions.md R195). -/
def copyVerdict (s : State) : Err :=
  arrayVerdict (fitsLm s s.rptr s.n.toNat && fitsLm s s.aptr s.n.toNat) s

/-- The checks of LZERO (60_exceptions.md R195). -/
def zeroVerdict (s : State) : Err := arrayVerdict (fitsLm s s.rptr s.n.toNat) s

/-- `p` lies in the footprint of the latched command (20_memory.md R57). -/
def Engine.footprint (g : Engine) (p : Nat) : Bool :=
  match g.op with
  | none => false
  | some .adc => false
  | some .sbb => false
  | some .add => false
  | some .sub => false
  | some .ladd =>
    inArray g.lr.toNat g.ln.toNat p || inArray g.la.toNat g.ln.toNat p || inArray g.lb.toNat g.ln.toNat p
  | some .lsub =>
    inArray g.lr.toNat g.ln.toNat p || inArray g.la.toNat g.ln.toNat p || inArray g.lb.toNat g.ln.toNat p
  | some .lsel => inArray g.lr.toNat g.ln.toNat p || inArray g.la.toNat (g.ln.toNat * g.lk.toNat) p
  | some .lcopy => inArray g.lr.toNat g.ln.toNat p || inArray g.la.toNat g.ln.toNat p
  | some .lzero => inArray g.lr.toNat g.ln.toNat p

end Sys2Proof.Machine
end

