-- ==== Sys2Proof/Machine/SelectSteps.lean ====
section
/-!
DEFINITION. The internal comparator and multiplexer of LSEL (42_select.md R151) and its micro-steps:
the ZERO phase (R153) and the SCAN phase (R154), which touches every limb of every entry.
-/
namespace Sys2Proof.Machine

/-- The mask of `ct_eq`. Its encoding in bits is internal and no port observes it, so it is a type of
two values (42_select.md R151). -/
inductive Mask where
  | equal
  | notEqual
deriving DecidableEq, Repr

/-- `ct_eq(x, y)` (42_select.md R151). -/
def ctEq (x y : Nat) : Mask := if x = y then .equal else .notEqual

/-- `ct_sel(m, p, q)` (42_select.md R151). -/
def ctSel (m : Mask) (p q : Limb) : Limb :=
  match m with
  | .equal => p
  | .notEqual => q

/-- LSEL's ZERO micro-step (42_select.md R153). -/
def lselZeroStep (s : State) : Result :=
  let s := engineWrite (s.eng.lr.toNat + s.eng.i) 0#64 s
  let s := { s with eng := { s.eng with i := s.eng.i + 1 } }
  .next (if s.eng.i = s.eng.ln.toNat then { s with eng := { s.eng with i := 0, e := 0, phase := .scan } } else s)

/-- The end of a SCAN micro-step: the next limb position, the next entry after the last limb, and the
completion after the last entry (42_select.md R154). -/
def lselAdvance (s : State) : State :=
  let s := { s with eng := { s.eng with i := s.eng.i + 1 } }
  if s.eng.i = s.eng.ln.toNat then
    let s := { s with eng := { s.eng with i := 0, e := s.eng.e + 1 } }
    if s.eng.e = s.eng.lk.toNat then complete s else s
  else s

/-- LSEL's SCAN micro-step (42_select.md R154). The write happens whatever the mask is. -/
def lselScanStep (s : State) : Result :=
  engineRead (s.eng.la.toNat + s.eng.e * s.eng.ln.toNat + s.eng.i) s fun t s =>
  engineRead (s.eng.lr.toNat + s.eng.i) s fun cur s =>
    let m := ctEq s.eng.lidx.toNat s.eng.e
    .next (lselAdvance (engineWrite (s.eng.lr.toNat + s.eng.i) (ctSel m t cur) s))

end Sys2Proof.Machine
end

