-- ==== Sys2Proof/Machine/WordSteps.lean ====
section
/-!
DEFINITION. The micro-step of the word commands (40_word_ops.md R105): RES and COUT are written
together, from the latched operands, and the command completes. No limb of LM is touched (R107).
-/
namespace Sys2Proof.Machine

/-- The one micro-step of a word command whose primitive gave `r` (40_word_ops.md R105). -/
def wordStep (r : Limb × Bool) (s : State) : Result :=
  .next (complete { s with res := r.1, cout := r.2 })

/-- ADC's micro-step: adc_W(wa, wb, wc) (40_word_ops.md R105, R108). -/
def adcStep (s : State) : Result := wordStep (adcW s.cfg.width s.eng.wa s.eng.wb s.eng.wc) s

/-- SBB's micro-step: sbb_W(wa, wb, wc) (40_word_ops.md R105, R109). -/
def sbbStep (s : State) : Result := wordStep (sbbW s.cfg.width s.eng.wa s.eng.wb s.eng.wc) s

/-- ADD's micro-step: adc_W(wa, wb, 0) (40_word_ops.md R105, R106, R110). -/
def addStep (s : State) : Result := wordStep (adcW s.cfg.width s.eng.wa s.eng.wb false) s

/-- SUB's micro-step: sbb_W(wa, wb, 0) (40_word_ops.md R105, R106, R111). -/
def subStep (s : State) : Result := wordStep (sbbW s.cfg.width s.eng.wa s.eng.wb false) s

end Sys2Proof.Machine
end

