-- ==== Sys2Proof/Machine/Micro.lean ====
section
/-!
DEFINITION. The ENGINE's one transition, the micro-step of the latched command (10_state.md R36), and a
run of micro-steps between two transactions of the HOST (70_reset_and_hazards.md R231).
-/
namespace Sys2Proof.Machine

/-- The ENGINE's micro-step. While busy = 0, and in the pairs of op and phase that no rule gives a
micro-step (no run reaches one, State.Inv), the ENGINE has no transition and the state stays
(10_state.md R36; log entry 11). -/
def microStep (s : State) : Result :=
  if s.eng.busy then
    match s.eng.op, s.eng.phase with
    | some .adc, .run => adcStep s
    | some .sbb, .run => sbbStep s
    | some .add, .run => addStep s
    | some .sub, .run => subStep s
    | some .ladd, .run => laddStep s
    | some .lsub, .run => lsubStep s
    | some .lsel, .zero => lselZeroStep s
    | some .lsel, .scan => lselScanStep s
    | some .lcopy, .run => lcopyStep s
    | some .lzero, .run => lzeroStep s
    | _, _ => .next s
  else .next s

/-- `k` turns of the ENGINE, each a micro-step while busy = 1 (70_reset_and_hazards.md R231). -/
def runEngine : Nat → State → Result
  | 0, s => .next s
  | k + 1, s => andThen (microStep s) (runEngine k)

/-- After a transaction of the HOST: the micro-steps its turn allows before the HOST's next
transaction (70_reset_and_hazards.md R231; log entry 4). -/
def finish (s : State) : Result := runEngine s.grant s

end Sys2Proof.Machine
end

