-- ==== Sys2Proof/Machine/ArrayCommands.lean ====
section
/-!
DEFINITION. LADD and LSUB (41_array_addsub.md R130, R131, R135, R136): checked LEN, then RANGE, then
accepted with phase RUN, i = 0 and c = 0.
-/
namespace Sys2Proof.Machine

/-- LADD: array add (41_array_addsub.md R135). -/
def execLadd (s : State) : Result := finish (issue .ladd .run (addSubVerdict s) s)

/-- LSUB: array subtract (41_array_addsub.md R136). -/
def execLsub (s : State) : Result := finish (issue .lsub .run (addSubVerdict s) s)

end Sys2Proof.Machine
end

