-- ==== Sys2Proof/Machine/CopyZeroCommands.lean ====
section
/-!
DEFINITION. LCOPY and LZERO (43_copy_zero.md R170, R173, R176, R177): checked LEN, then RANGE, then
accepted with phase RUN and i = 0.
-/
namespace Sys2Proof.Machine

/-- LCOPY: copy an array (43_copy_zero.md R173). -/
def execLcopy (s : State) : Result := finish (issue .lcopy .run (copyVerdict s) s)

/-- LZERO: zero an array (43_copy_zero.md R177). -/
def execLzero (s : State) : Result := finish (issue .lzero .run (zeroVerdict s) s)

end Sys2Proof.Machine
end

