-- ==== Sys2Proof/Machine/SelectCommand.lean ====
section
/-!
DEFINITION. LSEL (42_select.md R150, R152, R157): checked LEN, RANGE, INDEX, then accepted with phase
ZERO, i = 0 and e = 0.
-/
namespace Sys2Proof.Machine

/-- LSEL: constant-time table select (42_select.md R157). -/
def execLsel (s : State) : Result := finish (issue .lsel .zero (selectVerdict s) s)

end Sys2Proof.Machine
end

