-- ==== Sys2Proof/Machine/WordCommands.lean ====
section
/-!
DEFINITION. ADC, SBB, ADD and SUB (40_word_ops.md R108 to R111). A word command has no accept-time
check of its own: LEN, RANGE and INDEX do not apply (R108). Issued to an idle block it is accepted and
the ENGINE takes the micro-steps of its turn; while busy the write is ignored with OVR.
-/
namespace Sys2Proof.Machine

/-- ADC: add with carry (40_word_ops.md R108). -/
def execAdc (s : State) : Result := finish (issue .adc .run .none s)

/-- SBB: subtract with borrow (40_word_ops.md R109). -/
def execSbb (s : State) : Result := finish (issue .sbb .run .none s)

/-- ADD: add without carry-in (40_word_ops.md R110). -/
def execAdd (s : State) : Result := finish (issue .add .run .none s)

/-- SUB: subtract without borrow-in (40_word_ops.md R111). -/
def execSub (s : State) : Result := finish (issue .sub .run .none s)

end Sys2Proof.Machine
end

