-- ==== Sys2Proof/Machine/Dispatch.lean ====
section
/-!
DEFINITION. exec: the meaning of a command word, decoded, written to CMD by the HOST
(30_encoding.md R76), one arm per constructor of Instr.
-/
namespace Sys2Proof.Machine

def exec (i : Instr) (s : State) : Host.Outcome State Fault Refusal :=
  match i with
  | .adc => Sys2Proof.Machine.execAdc s
  | .sbb => Sys2Proof.Machine.execSbb s
  | .add => Sys2Proof.Machine.execAdd s
  | .sub => Sys2Proof.Machine.execSub s
  | .ladd => Sys2Proof.Machine.execLadd s
  | .lsub => Sys2Proof.Machine.execLsub s
  | .lsel => Sys2Proof.Machine.execLsel s
  | .lcopy => Sys2Proof.Machine.execLcopy s
  | .lzero => Sys2Proof.Machine.execLzero s

end Sys2Proof.Machine
end

