-- ==== Sys2Proof/Machine/HostPort.lean ====
section
/-!
DEFINITION. The HOST's transactions (30_encoding.md R77): the register port (10_state.md R20 to R41),
the write to CMD (30_encoding.md R76), the memory port (20_memory.md R50, R55, R60), Reset
(70_reset_and_hazards.md R220), and the pseudo-instructions' expansions (30_encoding.md R79).
-/
namespace Sys2Proof.Machine

/-- A write to an operand register: stored while BUSY = 0, else ignored with OVR set
(10_state.md R40, R41). -/
def writeOperand (stored : State) (s : State) : State :=
  if s.eng.busy then overrun s else stored

/-- A write to STATUS: bit 8 = 1 clears OVR; nothing else changes, busy or not (10_state.md R24). -/
def writeStatus (v : Limb) (s : State) : State :=
  if v.getLsbD 8 then { s with ovr := false } else s

/-- A HOST write of `v` to a slot other than CMD (10_state.md R24 to R41). CIN keeps bit 0 (R27). RES,
COUT, CFG, MEMSZ and slot 15 ignore it, without OVR (R40). A write to CMD is cmdWrite. -/
def writeSlot (slot : Slot) (v : Limb) (s : State) : State :=
  match slot with
  | .cmd => s
  | .status => writeStatus v s
  | .a => writeOperand { s with a := v } s
  | .b => writeOperand { s with b := v } s
  | .cin => writeOperand { s with cin := v.getLsbD 0 } s
  | .res => s
  | .cout => s
  | .rptr => writeOperand { s with rptr := v } s
  | .aptr => writeOperand { s with aptr := v } s
  | .bptr => writeOperand { s with bptr := v } s
  | .n => writeOperand { s with n := v } s
  | .k => writeOperand { s with k := v } s
  | .idx => writeOperand { s with idx := v } s
  | .cfg => s
  | .memsz => s
  | .reserved => s

/-- A HOST write of `v` to CMD (30_encoding.md R76): a legal word is the command it decodes to, an
illegal one is rejected with ERR = ILLEGAL, or ignored with OVR while busy. -/
def cmdWrite (v : Limb) (s : State) : Result :=
  match decode v with
  | .ok i => exec i s
  | .error _ => finish (issueIllegal s)

/-- A HOST write of `v` to a slot (30_encoding.md R77). -/
def hostRegWrite (slot : Slot) (v : Limb) (s : State) : Result :=
  match slot with
  | .cmd => cmdWrite v s
  | _ => finish (writeSlot slot v s)

/-- `HostMemRead(p)`: 0 beyond LM (20_memory.md R50); Fault(HOST_RACE) inside the footprint of a
running command (R60); Fault(UNINIT_READ) of a limb never written (R55); else LM[p]. -/
def hostMemRead (p : Limb) (s : State) : Result :=
  if s.cfg.memLimbs ≤ p.toNat then .next { s with returned := some 0#64 }
  else if s.eng.busy && s.eng.footprint p.toNat then .fault .hostRace
  else
    match s.lm.read p.toNat with
    | some v => .next { s with returned := some v }
    | none => .fault .uninitRead

/-- `HostMemWrite(p, v)`: ignored beyond LM (20_memory.md R50); Fault(HOST_RACE) inside the footprint
of a running command (R60); else LM[p] <- v. -/
def hostMemWrite (p v : Limb) (s : State) : Result :=
  if s.cfg.memLimbs ≤ p.toNat then .next s
  else if s.eng.busy && s.eng.footprint p.toNat then .fault .hostRace
  else .next { s with lm := s.lm.write p.toNat v }

/-- One transaction of the HOST, and then the ENGINE micro-steps its turn allows. The ports are W bits
wide: they take the low W bits of a value and of a limb address (00_scope.md R6; log entry 2). -/
def transact (op : HostOp) (s : State) : Result :=
  match op with
  | .regWrite slot v => hostRegWrite slot (narrow s.cfg.width v.toNat) s
  | .regRead slot => finish { s with returned := some (readSlot s slot) }
  | .memWrite p v => andThen (hostMemWrite (narrow s.cfg.width p.toNat) (narrow s.cfg.width v.toNat) s) finish
  | .memRead p => andThen (hostMemRead (narrow s.cfg.width p.toNat) s) finish
  | .reset => finish (resetBlock s)

/-- The expansion of a pseudo-instruction (30_encoding.md R79). -/
def Pseudo.expand : Pseudo → List HostLine
  | .cmd i => [.op (.regWrite .cmd (encode i))]
  | .adc a b c =>
    [.op (.regWrite .a a), .op (.regWrite .b b), .op (.regWrite .cin c), .op (.regWrite .cmd (encode .adc)), .wait]
  | .sbb a b c =>
    [.op (.regWrite .a a), .op (.regWrite .b b), .op (.regWrite .cin c), .op (.regWrite .cmd (encode .sbb)), .wait]
  | .add a b => [.op (.regWrite .a a), .op (.regWrite .b b), .op (.regWrite .cmd (encode .add)), .wait]
  | .sub a b => [.op (.regWrite .a a), .op (.regWrite .b b), .op (.regWrite .cmd (encode .sub)), .wait]
  | .ladd r a b n =>
    [.op (.regWrite .rptr r), .op (.regWrite .aptr a), .op (.regWrite .bptr b), .op (.regWrite .n n),
      .op (.regWrite .cmd (encode .ladd)), .wait]
  | .lsub r a b n =>
    [.op (.regWrite .rptr r), .op (.regWrite .aptr a), .op (.regWrite .bptr b), .op (.regWrite .n n),
      .op (.regWrite .cmd (encode .lsub)), .wait]
  | .lsel r t n k i =>
    [.op (.regWrite .rptr r), .op (.regWrite .aptr t), .op (.regWrite .n n), .op (.regWrite .k k),
      .op (.regWrite .idx i), .op (.regWrite .cmd (encode .lsel)), .wait]
  | .lcopy r a n =>
    [.op (.regWrite .rptr r), .op (.regWrite .aptr a), .op (.regWrite .n n), .op (.regWrite .cmd (encode .lcopy)),
      .wait]
  | .lzero r n =>
    [.op (.regWrite .rptr r), .op (.regWrite .n n), .op (.regWrite .cmd (encode .lzero)), .wait]

/-- The turns of a HOST program's line in a schedule where the ENGINE takes one micro-step after each
poll: a transaction is one turn with no micro-step, and `wait`, which repeats `rd STATUS` until BUSY
reads 0 (30_encoding.md R79), is `polls` reads of STATUS (log entry 6). -/
def HostLine.turns (polls : Nat) : HostLine → List Turn
  | .op t => [⟨t, 0⟩]
  | .wait => List.replicate polls ⟨.regRead .status, 1⟩

end Sys2Proof.Machine
end

