-- ==== Sys2Proof/Machine/Step.lean ====
section
/-!
DEFINITION. One step: the HOST's next turn, or, when the HOST has none, a micro-step of the ENGINE
(30_encoding.md R77, 70_reset_and_hazards.md R231, R235).
-/
namespace Sys2Proof.Machine

/-- One step of the machine. With no turn of the HOST to come, a running command takes its next
micro-step and an idle block stays as it is: it has no transition (10_state.md R36; log entry 7). -/
def step (s : State) : Host.Outcome State Fault Refusal :=
  match s.inputs with
  | [] => microStep s
  | t :: rest => transact t.op { s with inputs := rest, grant := t.grant }

/-- `s` with the command word of an opcode-table row as the HOST's next transaction, a write to CMD,
and with ENGINE micro-steps enough to run the command to its end, so that the very next step runs it
(log entry 6). -/
def State.withFetchWord (s : State) (nbits w : Nat) : State :=
  { s with
    inputs := ⟨.regWrite .cmd (BitVec.ofNat 64 (w % 2 ^ nbits)), s.n.toNat * (s.k.toNat + 1) + 1⟩ :: s.inputs }

end Sys2Proof.Machine
end

