-- ==== Sys2Proof/WellFormed.lean ====
section
/-!
DEFINITION. What is well formed: an instruction (every one: no operand fields, 30_encoding.md R71), a
build (00_scope.md R8), and a host transaction, whose values and addresses are below 2^W
(30_encoding.md R77, R78).
-/
namespace Sys2Proof

/-- An instruction has no operand field, so every one is well formed (30_encoding.md R71). -/
def Instr.wf : Instr → Bool
  | .adc | .sbb | .add | .sub | .ladd | .lsub | .lsel | .lcopy | .lzero => true

/-- A W-bit value: less than 2^W (00_scope.md R10). -/
abbrev Limb.Fits (w : Width) (v : Limb) : Prop := v.toNat < w.modulus

/-- The range of MEM_LIMBS: 1 ≤ MEM_LIMBS ≤ 2^W − 1 (00_scope.md R8). -/
abbrev Config.Wf (cfg : Config) : Prop := 1 ≤ cfg.memLimbs ∧ cfg.memLimbs ≤ cfg.width.modulus - 1

/-- A host transaction of a W-bit block: its value and its limb address are W-bit numbers
(30_encoding.md R77). -/
def HostOp.wf (w : Width) : HostOp → Bool
  | .regWrite _ v => decide (Limb.Fits w v)
  | .regRead _ => true
  | .memWrite p v => decide (Limb.Fits w p) && decide (Limb.Fits w v)
  | .memRead p => decide (Limb.Fits w p)
  | .reset => true

/-- A turn is well formed when its transaction is. -/
def Turn.wf (w : Width) (t : Turn) : Bool := t.op.wf w

end Sys2Proof
end

