-- ==== Sys2Proof/Safety.lean ====
section
/-!
DEFINITION. The terms that statements about the block use: the invariant of its states, when a command
may run, what it counts (70_reset_and_hazards.md R233), what is public (00_scope.md R13) and which limbs
hold a value (20_memory.md R55). A safe run is one whose steps all answer a next state.
-/
namespace Sys2Proof.Machine

/-! ### The invariant of the block's states -/

/-- The host-visible registers are W-bit numbers (00_scope.md R10). -/
abbrev State.RegsFit (s : State) : Prop :=
  Limb.Fits s.cfg.width s.a ∧ Limb.Fits s.cfg.width s.b ∧ Limb.Fits s.cfg.width s.res ∧
  Limb.Fits s.cfg.width s.rptr ∧ Limb.Fits s.cfg.width s.aptr ∧ Limb.Fits s.cfg.width s.bptr ∧
  Limb.Fits s.cfg.width s.n ∧ Limb.Fits s.cfg.width s.k ∧ Limb.Fits s.cfg.width s.idx ∧
  Limb.Fits s.cfg.width (s.returned.getD 0#64)

/-- The latched operands are W-bit numbers (10_state.md R36). -/
abbrev Engine.Fits (w : Width) (g : Engine) : Prop :=
  Limb.Fits w g.lr ∧ Limb.Fits w g.la ∧ Limb.Fits w g.lb ∧ Limb.Fits w g.ln ∧ Limb.Fits w g.lk ∧
  Limb.Fits w g.lidx ∧ Limb.Fits w g.wa ∧ Limb.Fits w g.wb

/-- What holds of the ENGINE between micro-steps: idle, it is in phase IDLE; running, its op and phase
are a pair that some rule gives a micro-step, its counters are in range, and the checks made at accept
still hold of the latched operands (10_state.md R36, 60_exceptions.md R194 to R196). -/
def Engine.legal (memLimbs : Nat) (g : Engine) : Bool :=
  if g.busy then
    match g.op, g.phase with
    | some .adc, .run => true
    | some .sbb, .run => true
    | some .add, .run => true
    | some .sub, .run => true
    | some .ladd, .run =>
      decide (g.i < g.ln.toNat ∧ g.lr.toNat + g.ln.toNat ≤ memLimbs ∧ g.la.toNat + g.ln.toNat ≤ memLimbs ∧
        g.lb.toNat + g.ln.toNat ≤ memLimbs)
    | some .lsub, .run =>
      decide (g.i < g.ln.toNat ∧ g.lr.toNat + g.ln.toNat ≤ memLimbs ∧ g.la.toNat + g.ln.toNat ≤ memLimbs ∧
        g.lb.toNat + g.ln.toNat ≤ memLimbs)
    | some .lsel, .zero =>
      decide (g.i < g.ln.toNat ∧ g.e = 0 ∧ g.lr.toNat + g.ln.toNat ≤ memLimbs ∧
        g.la.toNat + g.ln.toNat * g.lk.toNat ≤ memLimbs ∧ g.lidx.toNat < g.lk.toNat)
    | some .lsel, .scan =>
      decide (g.i < g.ln.toNat ∧ g.e < g.lk.toNat ∧ g.lr.toNat + g.ln.toNat ≤ memLimbs ∧
        g.la.toNat + g.ln.toNat * g.lk.toNat ≤ memLimbs ∧ g.lidx.toNat < g.lk.toNat)
    | some .lcopy, .run =>
      decide (g.i < g.ln.toNat ∧ g.lr.toNat + g.ln.toNat ≤ memLimbs ∧ g.la.toNat + g.ln.toNat ≤ memLimbs)
    | some .lzero, .run => decide (g.i < g.ln.toNat ∧ g.lr.toNat + g.ln.toNat ≤ memLimbs)
    | _, _ => false
  else decide (g.phase = .idle)

/-- Every limb that holds a value lies in LM and holds a W-bit number (20_memory.md R50). -/
abbrev Memory.Fits (cfg : Config) (m : Memory) : Prop :=
  ∀ c ∈ m, c.1 < cfg.memLimbs ∧ Limb.Fits cfg.width c.2

/-- The invariant of the block's states: a build's parameters in range, W-bit registers, an ENGINE
between micro-steps, and LM canonical and in range. -/
abbrev State.Inv (s : State) : Prop :=
  s.cfg.Wf ∧ s.RegsFit ∧ s.eng.Fits s.cfg.width ∧ s.eng.legal s.cfg.memLimbs = true ∧ s.lm.wf ∧
  s.lm.Fits s.cfg

/-! ### Schedules -/

/-- `s` with one more turn of the HOST to come, before the others. -/
abbrev State.withTurn (s : State) (op : HostOp) (grant : Nat) : State :=
  { s with inputs := ⟨op, grant⟩ :: s.inputs }

/-- No command is running: STATUS.BUSY = 0. -/
abbrev State.Idle (s : State) : Prop := s.eng.busy = false

/-- A run of a HOST program is over: the HOST's last transaction is made and BUSY = 0. What is then
observed is the register slots and LM (70_reset_and_hazards.md R235). -/
abbrev State.Ended (s : State) : Prop := s.inputs = [] ∧ s.Idle

/-! ### When a command is accepted -/

/-- The commands that work on arrays (30_encoding.md R76). -/
def isArrayCommand : Instr → Bool
  | .adc | .sbb | .add | .sub => false
  | .ladd | .lsub | .lsel | .lcopy | .lzero => true

/-- The range check of a command, over the unbounded naturals (60_exceptions.md R195). -/
def rangeOk (i : Instr) (s : State) : Bool :=
  match i with
  | .adc | .sbb | .add | .sub => true
  | .ladd | .lsub =>
    decide (s.rptr.toNat + s.n.toNat ≤ s.cfg.memLimbs ∧ s.aptr.toNat + s.n.toNat ≤ s.cfg.memLimbs ∧
      s.bptr.toNat + s.n.toNat ≤ s.cfg.memLimbs)
  | .lsel =>
    decide (s.rptr.toNat + s.n.toNat ≤ s.cfg.memLimbs ∧ s.aptr.toNat + s.n.toNat * s.k.toNat ≤ s.cfg.memLimbs)
  | .lcopy =>
    decide (s.rptr.toNat + s.n.toNat ≤ s.cfg.memLimbs ∧ s.aptr.toNat + s.n.toNat ≤ s.cfg.memLimbs)
  | .lzero => decide (s.rptr.toNat + s.n.toNat ≤ s.cfg.memLimbs)

/-- The error code of a legal command word written while BUSY = 0: the first of LEN, RANGE and INDEX
that fails, or NONE (30_encoding.md R76, 60_exceptions.md R192, R194 to R196). -/
def acceptCode (i : Instr) (s : State) : Err :=
  if isArrayCommand i = true ∧ s.n.toNat = 0 then .len
  else if rangeOk i s = false then .range
  else if i = .lsel ∧ s.k.toNat ≤ s.idx.toNat then .index
  else .none

/-- The first phase of a command (30_encoding.md R76). -/
def firstPhase : Instr → Phase
  | .lsel => .zero
  | .adc | .sbb | .add | .sub | .ladd | .lsub | .lcopy | .lzero => .run

/-! ### Which limbs hold a value, and how arrays lie -/

/-- Every limb of the n-limb array at `base` has been written (20_memory.md R55). -/
abbrev Written (m : Memory) (base n : Nat) : Prop := ∀ i, i < n → (m.read (base + i)).isSome = true

/-- The source limbs that a command reads have been written (70_reset_and_hazards.md R224). -/
def sourcesWritten (i : Instr) (s : State) : Prop :=
  match i with
  | .adc | .sbb | .add | .sub | .lzero => True
  | .ladd | .lsub => Written s.lm s.aptr.toNat s.n.toNat ∧ Written s.lm s.bptr.toNat s.n.toNat
  | .lsel => Written s.lm s.aptr.toNat (s.n.toNat * s.k.toNat)
  | .lcopy => Written s.lm s.aptr.toNat s.n.toNat

/-- The partial-overlap band of 41_array_addsub.md R138: src < dst < src + n. -/
abbrev InBand (dst src n : Nat) : Prop := src < dst ∧ dst < src + n

/-- [p, p + n) and [q, q + m) have no limb in common. -/
abbrev Disjoint (p n q m : Nat) : Prop := p + n ≤ q ∨ q + m ≤ p

/-! ### Counts and traces -/

/-- The micro-steps of an accepted command (70_reset_and_hazards.md R233). -/
def microStepCount (i : Instr) (n k : Nat) : Nat :=
  match i with
  | .adc | .sbb | .add | .sub => 1
  | .ladd | .lsub => n
  | .lsel => n * (k + 1)
  | .lcopy => n
  | .lzero => n

/-- The reads of an accepted command's trace (70_reset_and_hazards.md R233). -/
def readCount (i : Instr) (n k : Nat) : Nat :=
  match i with
  | .adc | .sbb | .add | .sub => 0
  | .ladd | .lsub => 2 * n
  | .lsel => 2 * n * k
  | .lcopy => n
  | .lzero => 0

/-- The writes of an accepted command's trace (70_reset_and_hazards.md R233). -/
def writeCount (i : Instr) (n k : Nat) : Nat :=
  match i with
  | .adc | .sbb | .add | .sub => 0
  | .ladd | .lsub => n
  | .lsel => n + n * k
  | .lcopy => n
  | .lzero => n

/-- The limb address of an event of the trace. -/
def Access.addr : Access → Nat
  | .rd p => p
  | .wr p => p

/-- An event of the trace is a read. -/
def Access.isRead : Access → Bool
  | .rd _ => true
  | .wr _ => false

/-- The trace of LADD and of LSUB (41_array_addsub.md R134). -/
def addSubTrace (lr la lb ln : Nat) : List Access :=
  (List.range ln).flatMap fun i => [.rd (la + i), .rd (lb + i), .wr (lr + i)]

/-- The trace of LSEL: ZERO, then SCAN with e outer and i inner (42_select.md R156). -/
def selectTrace (lr la ln lk : Nat) : List Access :=
  (List.range ln).map (fun i => .wr (lr + i)) ++
    (List.range lk).flatMap fun e =>
      (List.range ln).flatMap fun i => [.rd (la + e * ln + i), .rd (lr + i), .wr (lr + i)]

/-- The trace of LCOPY (43_copy_zero.md R174). -/
def copyTrace (lr la ln : Nat) : List Access :=
  (List.range ln).flatMap fun i => [.rd (la + i), .wr (lr + i)]

/-- The trace of LZERO (43_copy_zero.md R178). -/
def zeroTrace (lr ln : Nat) : List Access := (List.range ln).map fun i => .wr (lr + i)

/-! ### Public state -/

/-- The ENGINE's public fields agree: all but lidx, wa, wb, wc and c (70_reset_and_hazards.md R232). -/
abbrev Engine.PublicEq (g h : Engine) : Prop :=
  g.busy = h.busy ∧ g.op = h.op ∧ g.phase = h.phase ∧ g.i = h.i ∧ g.e = h.e ∧ g.lr = h.lr ∧ g.la = h.la ∧
  g.lb = h.lb ∧ g.ln = h.ln ∧ g.lk = h.lk

/-- Two states agree on all public state, on the trace made so far and on the micro-steps that the turn
allows (00_scope.md R13, 70_reset_and_hazards.md R232). CMD reads 0 in every state. -/
abbrev PublicEq (s t : State) : Prop :=
  s.cfg = t.cfg ∧ s.err = t.err ∧ s.ovr = t.ovr ∧ s.rptr = t.rptr ∧ s.aptr = t.aptr ∧ s.bptr = t.bptr ∧
  s.n = t.n ∧ s.k = t.k ∧ s.eng.PublicEq t.eng ∧ s.trace = t.trace ∧ s.grant = t.grant

end Sys2Proof.Machine
end

