-- ==== Sys2Proof/Certificates/Slice0/Obligations.lean ====
section
/-!
DEFINITION. The statements about the limb core, for the provers. `State.withTurn op g` puts one
transaction of the HOST next, with `g` ENGINE micro-steps after it; `exec i` is a legal command word
written to CMD, with the micro-steps of its turn.
-/
open Sys2Proof Sys2Proof.Machine

/-! ### The command word -/

/-- 30_encoding.md R72, R73: the words of the nine commands written out, and the three neighbours of
95_test_vectors.md E2 to E4, which are illegal. -/
def Obligations.WrittenOutCommandWordsDecode : Prop :=
  decode 0x00000001#64 = .ok .adc ∧ decode 0x00000002#64 = .ok .sbb ∧
  decode 0x00000003#64 = .ok .add ∧ decode 0x00000004#64 = .ok .sub ∧
  decode 0x00000010#64 = .ok .ladd ∧ decode 0x00000011#64 = .ok .lsub ∧
  decode 0x00000020#64 = .ok .lsel ∧ decode 0x00000030#64 = .ok .lcopy ∧
  decode 0x00000031#64 = .ok .lzero ∧
  decode 0x00000000#64 = .error .reservedOpcode ∧ decode 0x00000005#64 = .error .reservedOpcode ∧
  decode 0x00000110#64 = .error .reservedBits ∧ decode 0x0000000100000001#64 = .error .reservedBits

/-- 30_encoding.md R72: the word of every command decodes to it. -/
def Obligations.EncodedCommandDecodesToItself : Prop :=
  ∀ i : Instr, i.wf = true → decode (encode i) = .ok i

/-- 30_encoding.md R73, 60_exceptions.md R198: a W-bit word is legal exactly when its bits [W-1:8] are 0
and bits [7:0] are one of the nine opcodes; it then is the word of the command it decodes to; and
writing any other word to CMD while BUSY = 0 sets ERR = ILLEGAL and does nothing else. -/
def Obligations.LegalWordsAreExactlyTheNine : Prop :=
  (∀ v : Limb, (∃ i, decode v = .ok i) ↔
    v.toNat / 2 ^ 8 = 0 ∧ v.toNat % 2 ^ 8 ∈ [0x01, 0x02, 0x03, 0x04, 0x10, 0x11, 0x20, 0x30, 0x31]) ∧
  (∀ (v : Limb) (i : Instr), decode v = .ok i ↔ v = encode i) ∧
  (∀ (s : State) (v : Limb) (g : Nat), s.Idle → Limb.Fits s.cfg.width v → (¬ ∃ i, decode v = .ok i) →
    step (s.withTurn (.regWrite .cmd v) g) = .next { s with grant := g, err := .illegal })

/-! ### One step -/

/-- 30_encoding.md R76: a legal word as the HOST's next write to CMD makes the step run exec of the
command it decodes to, with the turn taken from the schedule and its micro-steps granted; and the host's
withFetchWord places an opcode-table word so. -/
def Obligations.StepRunsTheDecodedCommand : Prop :=
  (∀ (s : State) (v : Limb) (g : Nat) (i : Instr), Limb.Fits s.cfg.width v → decode v = .ok i →
    step (s.withTurn (.regWrite .cmd v) g) = exec i { s with grant := g }) ∧
  (∀ (s : State) (nbits w : Nat) (i : Instr), w % 2 ^ nbits < s.cfg.width.modulus →
    decodeTableWord nbits w = some i →
    ∃ g, step (s.withFetchWord nbits w) = exec i { s with grant := g })

/-- 10_state.md R36, 70_reset_and_hazards.md R231, R235: when the HOST has no turn left, a step is the
ENGINE's micro-step while BUSY = 1 (R36, R231) and leaves an idle block, which has no transition, as it
is (the model's choice, log entry 7). -/
def Obligations.StepWithNoTurnIsTheEngines : Prop :=
  ∀ s : State, s.inputs = [] →
    (s.eng.busy = true → step s = microStep s) ∧ (s.eng.busy = false → step s = .next s)

/-- 70_reset_and_hazards.md R231: a turn that grants one more micro-step is the same turn followed by
one micro-step of the ENGINE, so that a step composes the block's transitions and adds none. Turns and
grants are the model's own (log entry 4). -/
def Obligations.GrantedMicroStepsCompose : Prop :=
  ∀ (s : State) (op : HostOp) (g : Nat),
    step (s.withTurn op (g + 1)) =
      andThen (andThen (step (s.withTurn op g)) microStep) fun t => .next { t with grant := g + 1 }

/-! ### Reset -/

/-- 10_state.md R20, 70_reset_and_hazards.md R220, R223: after power-up of any build every slot reads 0
but CFG and MEMSZ, the ENGINE is idle, and no limb holds a value. State.reset is the power-up of the
build that log entry 3 names (the model's choice). -/
def Obligations.PowerUpValues : Prop :=
  (∀ cfg : Config, cfg.Wf →
    (∀ slot : Slot, (readSlot (State.powerUp cfg) slot).toNat =
      match slot with
      | .cfg => cfg.width.bits + 2 ^ 8 * (match cfg.backend with | .builtin => 0 | .intrinsic => 1 | .fallback => 2)
      | .memsz => cfg.memLimbs
      | _ => 0) ∧
    (State.powerUp cfg).eng.busy = false ∧ (State.powerUp cfg).eng.phase = .idle ∧
    (State.powerUp cfg).err = .none ∧ ∀ p, (State.powerUp cfg).lm.read p = none) ∧
  State.reset = State.powerUp Config.built

/-- 70_reset_and_hazards.md R220: a Reset sets every register slot but CFG and MEMSZ to 0, CFG and MEMSZ
to the build's constants, and the ENGINE to busy = 0, phase = IDLE and 0 elsewhere; LM is unchanged
(R221). -/
def Obligations.ResetTransaction : Prop :=
  ∀ (s : State) (g : Nat), ∃ t, step (s.withTurn .reset g) = .next t ∧
    (∀ slot : Slot, slot ≠ .cfg → slot ≠ .memsz → readSlot t slot = 0#64) ∧
    readSlot t .cfg = readSlot s .cfg ∧ readSlot t .memsz = readSlot s .memsz ∧ t.cfg = s.cfg ∧
    t.err = .none ∧ t.ovr = false ∧
    t.eng = { busy := false, op := none, lr := 0#64, la := 0#64, lb := 0#64, ln := 0#64, lk := 0#64, lidx := 0#64,
              wa := 0#64, wb := 0#64, wc := false, phase := .idle, i := 0, e := 0, c := false } ∧
    t.lm = s.lm

/-- 70_reset_and_hazards.md R222: a Reset after j micro-steps of an LADD or LSUB leaves the prefix
[lr, lr + j) as the whole command would leave it and every other limb at its old value; RES and COUT
are 0. -/
def Obligations.ResetLeavesTheCompletedPrefix : Prop :=
  ∀ (op : Instr) (s t u : State) (j g : Nat), op = .ladd ∨ op = .lsub → s.Idle → acceptCode op s = .none →
    j < s.n.toNat →
    exec op { s with grant := s.n.toNat } = .next t → exec op { s with grant := j } = .next u →
    ∃ v, step (u.withTurn .reset g) = .next v ∧
      (∀ i, i < j → v.lm.read (s.rptr.toNat + i) = t.lm.read (s.rptr.toNat + i)) ∧
      (∀ p, p < s.rptr.toNat ∨ s.rptr.toNat + j ≤ p → v.lm.read p = s.lm.read p) ∧
      v.res = 0#64 ∧ v.cout = false ∧ v.eng.busy = false

/-! ### The register port -/

/-- 10_state.md R20, R23 to R35: what a read of each slot returns, field by field, and that the read
changes nothing but the value returned, which the model keeps in a field of its own (log entry 10). -/
def Obligations.RegisterReads : Prop :=
  ∀ s : State,
    (∀ slot : Slot, step (s.withTurn (.regRead slot) 0) =
      .next { s with grant := 0, returned := some (readSlot s slot) }) ∧
    (readSlot s .cmd).toNat = 0 ∧ (readSlot s .reserved).toNat = 0 ∧
    (readSlot s .status).toNat = (if s.eng.busy then 1 else 0) +
      2 ^ 4 * (match s.err with | .none => 0 | .illegal => 1 | .len => 2 | .range => 3 | .index => 4) +
      2 ^ 8 * (if s.ovr then 1 else 0) ∧
    readSlot s .a = s.a ∧ readSlot s .b = s.b ∧
    (readSlot s .cin).toNat = (if s.cin then 1 else 0) ∧ readSlot s .res = s.res ∧
    (readSlot s .cout).toNat = (if s.cout then 1 else 0) ∧
    readSlot s .rptr = s.rptr ∧ readSlot s .aptr = s.aptr ∧ readSlot s .bptr = s.bptr ∧
    readSlot s .n = s.n ∧ readSlot s .k = s.k ∧ readSlot s .idx = s.idx ∧
    (readSlot s .cfg).toNat = s.cfg.width.bits +
      2 ^ 8 * (match s.cfg.backend with | .builtin => 0 | .intrinsic => 1 | .fallback => 2) ∧
    (s.cfg.Wf → (readSlot s .memsz).toNat = s.cfg.memLimbs)

/-- 10_state.md R41: while BUSY = 0 a write to A, B, RPTR, APTR, BPTR, N, K or IDX stores all W bits and
a write to CIN stores bit 0; nothing else changes; and a read of any slot returns the slot's value. -/
def Obligations.IdleRegisterWritesStore : Prop :=
  ∀ (s : State) (v : Limb), s.Idle → Limb.Fits s.cfg.width v →
    step (s.withTurn (.regWrite .a v) 0) = .next { s with grant := 0, a := v } ∧
    step (s.withTurn (.regWrite .b v) 0) = .next { s with grant := 0, b := v } ∧
    step (s.withTurn (.regWrite .cin v) 0) = .next { s with grant := 0, cin := decide (v.toNat % 2 = 1) } ∧
    step (s.withTurn (.regWrite .rptr v) 0) = .next { s with grant := 0, rptr := v } ∧
    step (s.withTurn (.regWrite .aptr v) 0) = .next { s with grant := 0, aptr := v } ∧
    step (s.withTurn (.regWrite .bptr v) 0) = .next { s with grant := 0, bptr := v } ∧
    step (s.withTurn (.regWrite .n v) 0) = .next { s with grant := 0, n := v } ∧
    step (s.withTurn (.regWrite .k v) 0) = .next { s with grant := 0, k := v } ∧
    step (s.withTurn (.regWrite .idx v) 0) = .next { s with grant := 0, idx := v } ∧
    ∀ slot : Slot, step (s.withTurn (.regRead slot) 0) =
      .next { s with grant := 0, returned := some (readSlot s slot) }

/-- 10_state.md R40: while BUSY = 1 a write to CMD or to an operand register only sets OVR, the running
command untouched; a write to STATUS is processed as ever; a write to RES, COUT, CFG, MEMSZ or slot 15
is ignored without OVR, busy or not. -/
def Obligations.BusyRegisterWritesOnlySetOverrun : Prop :=
  (∀ (s : State) (v : Limb) (slot : Slot), s.eng.busy = true →
    slot ∈ [.cmd, .a, .b, .cin, .rptr, .aptr, .bptr, .n, .k, .idx] →
    step (s.withTurn (.regWrite slot v) 0) = .next { s with grant := 0, ovr := true }) ∧
  (∀ (s : State) (v : Limb), Limb.Fits s.cfg.width v →
    step (s.withTurn (.regWrite .status v) 0) =
      .next { s with grant := 0, ovr := s.ovr && decide (v.toNat / 2 ^ 8 % 2 = 0) }) ∧
  (∀ (s : State) (v : Limb) (slot : Slot), slot ∈ [.res, .cout, .cfg, .memsz, .reserved] →
    step (s.withTurn (.regWrite slot v) 0) = .next { s with grant := 0 })

/-! ### The memory port -/

/-- 20_memory.md R50, R60: a HOST access to a limb that is not in the footprint of a running command. A
write sets that limb to v and changes nothing else; a read of a limb that holds a value returns it. At
and beyond MEM_LIMBS a write is ignored and a read returns 0, busy or not. What a read returned is kept in
a field of the model's own (log entry 10). -/
def Obligations.HostMemoryAccess : Prop :=
  ∀ (s : State) (p v : Limb), Limb.Fits s.cfg.width p → Limb.Fits s.cfg.width v →
    (p.toNat < s.cfg.memLimbs → (s.eng.busy && s.eng.footprint p.toNat) = false →
      (∃ t, step (s.withTurn (.memWrite p v) 0) = .next t ∧ t = { s with grant := 0, lm := t.lm } ∧
        t.lm.read p.toNat = some v ∧ ∀ q, q ≠ p.toNat → t.lm.read q = s.lm.read q) ∧
      (∀ x, s.lm.read p.toNat = some x →
        step (s.withTurn (.memRead p) 0) = .next { s with grant := 0, returned := some x })) ∧
    (s.cfg.memLimbs ≤ p.toNat →
      step (s.withTurn (.memWrite p v) 0) = .next { s with grant := 0 } ∧
      step (s.withTurn (.memRead p) 0) = .next { s with grant := 0, returned := some 0#64 })

/-- 20_memory.md R60, 60_exceptions.md R201: a HOST access to a limb in the footprint of the running
command while BUSY = 1 is Fault(HOST_RACE), read or write, whatever the turn grants. -/
def Obligations.HostAccessInFootprintIsARace : Prop :=
  ∀ (s : State) (p v : Limb) (g : Nat), Limb.Fits s.cfg.width p → p.toNat < s.cfg.memLimbs →
    s.eng.busy = true → s.eng.footprint p.toNat = true →
    step (s.withTurn (.memWrite p v) g) = .fault .hostRace ∧ step (s.withTurn (.memRead p) g) = .fault .hostRace

/-- 20_memory.md R57: the footprint of each command, from the operands latched at accept. -/
def Obligations.FootprintOfEachCommand : Prop :=
  ∀ (i : Instr) (s : State) (p : Nat),
    (accept i (firstPhase i) s).eng.footprint p = true ↔
      match i with
      | .adc | .sbb | .add | .sub => False
      | .ladd | .lsub =>
        (s.rptr.toNat ≤ p ∧ p < s.rptr.toNat + s.n.toNat) ∨ (s.aptr.toNat ≤ p ∧ p < s.aptr.toNat + s.n.toNat) ∨
          (s.bptr.toNat ≤ p ∧ p < s.bptr.toNat + s.n.toNat)
      | .lsel =>
        (s.rptr.toNat ≤ p ∧ p < s.rptr.toNat + s.n.toNat) ∨
          (s.aptr.toNat ≤ p ∧ p < s.aptr.toNat + s.n.toNat * s.k.toNat)
      | .lcopy =>
        (s.rptr.toNat ≤ p ∧ p < s.rptr.toNat + s.n.toNat) ∨ (s.aptr.toNat ≤ p ∧ p < s.aptr.toNat + s.n.toNat)
      | .lzero => s.rptr.toNat ≤ p ∧ p < s.rptr.toNat + s.n.toNat

/-- 20_memory.md R55, 60_exceptions.md R201: a read of a limb never written is Fault(UNINIT_READ), by the
HOST and by each micro-step of the ENGINE that reads. -/
def Obligations.UnwrittenReadIsAFault : Prop :=
  (∀ (s : State) (p : Limb) (g : Nat), Limb.Fits s.cfg.width p → p.toNat < s.cfg.memLimbs →
    (s.eng.busy && s.eng.footprint p.toNat) = false → s.lm.read p.toNat = none →
    step (s.withTurn (.memRead p) g) = .fault .uninitRead) ∧
  (∀ s : State, s.eng.busy = true → s.eng.phase = .run → s.eng.i < s.eng.ln.toNat →
    s.eng.op = some .ladd ∨ s.eng.op = some .lsub →
    s.lm.read (s.eng.la.toNat + s.eng.i) = none ∨ s.lm.read (s.eng.lb.toNat + s.eng.i) = none →
    microStep s = .fault .uninitRead) ∧
  (∀ s : State, s.eng.busy = true → s.eng.phase = .scan → s.eng.op = some .lsel →
    s.lm.read (s.eng.la.toNat + s.eng.e * s.eng.ln.toNat + s.eng.i) = none ∨
      s.lm.read (s.eng.lr.toNat + s.eng.i) = none →
    microStep s = .fault .uninitRead) ∧
  (∀ s : State, s.eng.busy = true → s.eng.phase = .run → s.eng.i < s.eng.ln.toNat → s.eng.op = some .lcopy →
    s.lm.read (s.eng.la.toNat + s.eng.i) = none → microStep s = .fault .uninitRead)

/-! ### Acceptance -/

/-- 60_exceptions.md R192 to R196: a legal command word written while BUSY = 0 is rejected with the first
of LEN, RANGE and INDEX that fails (acceptCode), and then ERR takes that code and nothing else changes,
whatever the turn grants. -/
def Obligations.RejectedCommandSetsOnlyErr : Prop :=
  ∀ (i : Instr) (s : State), s.Idle → acceptCode i s ≠ .none →
    exec i s = .next { s with err := acceptCode i s }

/-- 60_exceptions.md R192: of several failing checks the first in the order ILLEGAL, LEN, RANGE, INDEX
gives ERR. -/
def Obligations.FirstFailingCheckGivesErr : Prop :=
  ∀ (s : State) (v : Limb), s.Idle → Limb.Fits s.cfg.width v → ∃ t,
    step (s.withTurn (.regWrite .cmd v) 0) = .next t ∧
    t.err =
      match decode v with
      | .error _ => .illegal
      | .ok i =>
        if isArrayCommand i = true ∧ s.n = 0#64 then .len
        else if rangeOk i s = false then .range
        else if i = .lsel ∧ s.k.toNat ≤ s.idx.toNat then .index
        else .none

/-- 30_encoding.md R76, R80: a command that passes its checks is accepted: the operands are latched, i, e
and c are 0, the phase is the command's first, ERR is 0 and BUSY is 1; no limb is touched and nothing
else changes. -/
def Obligations.AcceptLatchesTheOperands : Prop :=
  ∀ (i : Instr) (s : State), s.Idle → acceptCode i s = .none → s.grant = 0 →
    exec i s = .next { s with
      err := .none
      eng := { busy := true, op := some i, lr := s.rptr, la := s.aptr, lb := s.bptr, ln := s.n, lk := s.k,
               lidx := s.idx, wa := s.a, wb := s.b, wc := s.cin, phase := firstPhase i, i := 0, e := 0, c := false } }

/-- 60_exceptions.md R199: a CMD write while BUSY = 1 leaves ERR, is ignored and sets OVR; and OVR stays
set until the HOST clears it by a STATUS write with bit 8 = 1, or a Reset. -/
def Obligations.CommandWhileBusyIsIgnored : Prop :=
  (∀ (s : State) (v : Limb), s.eng.busy = true →
    step (s.withTurn (.regWrite .cmd v) 0) = .next { s with grant := 0, ovr := true }) ∧
  (∀ (s t : State) (op : HostOp) (g : Nat), s.ovr = true → step (s.withTurn op g) = .next t →
    op ≠ .reset → (∀ v, op = .regWrite .status v → v.getLsbD 8 = false) → t.ovr = true) ∧
  (∀ s t : State, s.ovr = true → microStep s = .next t → t.ovr = true)

/-- 10_state.md R24, 92_eei_decisions.md D36: only a CMD write that is not ignored and a Reset change
ERR: no other transaction does, nor does any micro-step, a command's last included. -/
def Obligations.ErrKeepsTheLastVerdict : Prop :=
  (∀ (s t : State) (op : HostOp) (g : Nat), step (s.withTurn op g) = .next t → op ≠ .reset →
    (s.eng.busy = false → ∀ v, op ≠ .regWrite .cmd v) → t.err = s.err) ∧
  (∀ s t : State, microStep s = .next t → t.err = s.err)

/-! ### The word commands -/

/-- 40_word_ops.md R108, R110: ADC and ADD on an idle block, given one micro-step, leave the sum mod 2^W
in RES and the carry in COUT, BUSY = 0 and ERR = 0, and change nothing else but the latched fields. -/
def Obligations.CarryCommandsComplete : Prop :=
  ∀ s : State, s.Idle → 1 ≤ s.grant →
    exec .adc s = .next { s with
      err := .none
      res := BitVec.ofNat 64 ((s.a.toNat + s.b.toNat + s.cin.toNat) % 2 ^ s.cfg.width.bits)
      cout := decide (2 ^ s.cfg.width.bits ≤ s.a.toNat + s.b.toNat + s.cin.toNat)
      eng := { (accept .adc .run s).eng with busy := false, phase := .idle } } ∧
    exec .add s = .next { s with
      err := .none
      res := BitVec.ofNat 64 ((s.a.toNat + s.b.toNat) % 2 ^ s.cfg.width.bits)
      cout := decide (2 ^ s.cfg.width.bits ≤ s.a.toNat + s.b.toNat)
      eng := { (accept .add .run s).eng with busy := false, phase := .idle } }

/-- 40_word_ops.md R109, R111: SBB and SUB on an idle block, given one micro-step, leave the difference
mod 2^W in RES and the borrow in COUT, BUSY = 0 and ERR = 0, and change nothing else but the latched
fields. -/
def Obligations.BorrowCommandsComplete : Prop :=
  ∀ s : State, s.Idle → 1 ≤ s.grant →
    (∃ t, exec .sbb s = .next t ∧
      (t.res.toNat : Int) = ((s.a.toNat : Int) - s.b.toNat - s.cin.toNat) % 2 ^ s.cfg.width.bits ∧
      t.cout = decide (s.a.toNat < s.b.toNat + s.cin.toNat) ∧
      t = { s with err := .none, res := t.res, cout := t.cout,
                   eng := { (accept .sbb .run s).eng with busy := false, phase := .idle } }) ∧
    (∃ t, exec .sub s = .next t ∧
      (t.res.toNat : Int) = ((s.a.toNat : Int) - s.b.toNat) % 2 ^ s.cfg.width.bits ∧
      t.cout = decide (s.a.toNat < s.b.toNat) ∧
      t = { s with err := .none, res := t.res, cout := t.cout,
                   eng := { (accept .sub .run s).eng with busy := false, phase := .idle } })

/-- 40_word_ops.md R112: the exact laws of the word commands over the unbounded integers, on an idle
block whose registers are W-bit numbers, given one micro-step. -/
def Obligations.WordCommandLaws : Prop :=
  ∀ s : State, s.Inv → s.Idle → 1 ≤ s.grant →
    (∃ t, exec .adc s = .next t ∧
      t.res.toNat + t.cout.toNat * 2 ^ s.cfg.width.bits = s.a.toNat + s.b.toNat + s.cin.toNat) ∧
    (∃ t, exec .add s = .next t ∧
      t.res.toNat + t.cout.toNat * 2 ^ s.cfg.width.bits = s.a.toNat + s.b.toNat) ∧
    (∃ t, exec .sbb s = .next t ∧
      (t.res.toNat : Int) - t.cout.toNat * 2 ^ s.cfg.width.bits = s.a.toNat - s.b.toNat - s.cin.toNat ∧
      (t.cout = true ↔ s.a.toNat < s.b.toNat + s.cin.toNat)) ∧
    (∃ t, exec .sub s = .next t ∧
      (t.res.toNat : Int) - t.cout.toNat * 2 ^ s.cfg.width.bits = s.a.toNat - s.b.toNat ∧
      (t.cout = true ↔ s.a.toNat < s.b.toNat))

/-- 40_word_ops.md R106: ADD is ADC with CIN = 0 and SUB is SBB with CIN = 0, whatever CIN holds: in
RES, COUT, trace and step count (the same BUSY after every number of micro-steps). -/
def Obligations.AddAndSubIgnoreCarryIn : Prop :=
  ∀ s : State, s.Idle →
    (∃ t u, exec .add s = .next t ∧ exec .adc { s with cin := false } = .next u ∧
      t.res = u.res ∧ t.cout = u.cout ∧ t.trace = u.trace ∧ t.eng.busy = u.eng.busy) ∧
    (∃ t u, exec .sub s = .next t ∧ exec .sbb { s with cin := false } = .next u ∧
      t.res = u.res ∧ t.cout = u.cout ∧ t.trace = u.trace ∧ t.eng.busy = u.eng.busy)

/-- 40_word_ops.md R107: a word command takes exactly one micro-step, makes no access, and its footprint
is empty. -/
def Obligations.WordCommandTakesOneMicroStep : Prop :=
  ∀ (i : Instr) (s : State), i = .adc ∨ i = .sbb ∨ i = .add ∨ i = .sub → s.Idle →
    ∃ t, exec i s = .next t ∧ t.eng.busy = decide (s.grant < 1) ∧ t.trace = s.trace ∧
      ∀ p, t.eng.footprint p = false

/-- 40_word_ops.md R102: FALLBACK's low W bits and bit W of the 2W-bit sum or difference are adc_W and
sbb_W for all inputs, and a difference that underflows has all ones above its low W bits, so that its
right shift by W is not the borrow. -/
def Obligations.FallbackComputesThePrimitives : Prop :=
  ∀ (w : Width) (a b : Limb) (c : Bool), Limb.Fits w a → Limb.Fits w b →
    adcFallback w a b c = adcW w a b c ∧ sbbFallback w a b c = sbbW w a b c ∧
    ((a.toNat : Int) - b.toNat - c.toNat < 0 →
      doubleLimb w ((a.toNat : Int) - b.toNat - c.toNat) / 2 ^ w.bits = 2 ^ w.bits - 1)

/-- 00_scope.md R7, 40_word_ops.md R113, 70_reset_and_hazards.md R234: no command's answer, result,
access or step count depends on BACKEND. -/
def Obligations.BackendChangesNoResult : Prop :=
  ∀ (i : Instr) (s : State) (b : Backend),
    exec i { s with cfg := { s.cfg with backend := b } } =
      andThen (exec i s) fun t => .next { t with cfg := { t.cfg with backend := b } }

/-- The frame of the word commands on an idle block (40_word_ops.md R105, R108 to R111): whatever the
turn grants, only RES, COUT, ERR and the ENGINE may change; LM and the trace do not. -/
def Obligations.WordCommandFrame : Prop :=
  ∀ (i : Instr) (s t : State), i = .adc ∨ i = .sbb ∨ i = .add ∨ i = .sub → s.Idle → exec i s = .next t →
    t = { s with res := t.res, cout := t.cout, err := t.err, eng := t.eng }

/-! ### LADD and LSUB -/

/-- 41_array_addsub.md R132: the micro-step of LADD and LSUB, with the word primitive of 40_word_ops.md
R100 or R101 on the two limbs and the internal carry. -/
def Obligations.AddSubMicroStep : Prop :=
  ∀ (s : State) (x y : Limb), s.eng.busy = true → s.eng.phase = .run → s.eng.i < s.eng.ln.toNat →
    s.eng.op = some .ladd ∨ s.eng.op = some .lsub →
    s.lm.read (s.eng.la.toNat + s.eng.i) = some x → s.lm.read (s.eng.lb.toNat + s.eng.i) = some y →
    ∃ t r, microStep s = .next t ∧
      r = (if s.eng.op = some .ladd then adcW s.cfg.width x y s.eng.c else sbbW s.cfg.width x y s.eng.c) ∧
      t.lm.read (s.eng.lr.toNat + s.eng.i) = some r.1 ∧
      (∀ p, p ≠ s.eng.lr.toNat + s.eng.i → t.lm.read p = s.lm.read p) ∧
      t.trace = s.trace ++ [.rd (s.eng.la.toNat + s.eng.i), .rd (s.eng.lb.toNat + s.eng.i),
        .wr (s.eng.lr.toNat + s.eng.i)] ∧
      t.cout = (if s.eng.i + 1 = s.eng.ln.toNat then r.2 else s.cout) ∧
      t = { s with
        lm := t.lm
        trace := t.trace
        cout := t.cout
        eng := { s.eng with
          c := r.2
          i := s.eng.i + 1
          busy := !decide (s.eng.i + 1 = s.eng.ln.toNat)
          phase := if s.eng.i + 1 = s.eng.ln.toNat then .idle else .run } }

/-- 41_array_addsub.md R139: an accepted LADD or LSUB of length n whose destination is in neither
partial-overlap band, with both sources written and n micro-steps granted, completes and leaves the sum,
or the difference, of the two little-endian integers in r and COUT. -/
def Obligations.ArrayAddSubLaw : Prop :=
  ∀ s : State, s.Inv → s.Idle → s.n.toNat ≤ s.grant →
    ¬ InBand s.rptr.toNat s.aptr.toNat s.n.toNat → ¬ InBand s.rptr.toNat s.bptr.toNat s.n.toNat →
    Written s.lm s.aptr.toNat s.n.toNat → Written s.lm s.bptr.toNat s.n.toNat →
    (acceptCode .ladd s = .none → ∃ t, exec .ladd s = .next t ∧ t.eng.busy = false ∧ t.err = .none ∧
      t.lm.int s.cfg.width s.rptr.toNat s.n.toNat + t.cout.toNat * 2 ^ (s.n.toNat * s.cfg.width.bits) =
        s.lm.int s.cfg.width s.aptr.toNat s.n.toNat + s.lm.int s.cfg.width s.bptr.toNat s.n.toNat) ∧
    (acceptCode .lsub s = .none → ∃ t, exec .lsub s = .next t ∧ t.eng.busy = false ∧ t.err = .none ∧
      (t.lm.int s.cfg.width s.rptr.toNat s.n.toNat : Int) - t.cout.toNat * 2 ^ (s.n.toNat * s.cfg.width.bits) =
        s.lm.int s.cfg.width s.aptr.toNat s.n.toNat - s.lm.int s.cfg.width s.bptr.toNat s.n.toNat ∧
      (t.cout = true ↔ s.lm.int s.cfg.width s.aptr.toNat s.n.toNat < s.lm.int s.cfg.width s.bptr.toNat s.n.toNat))

/-- 41_array_addsub.md R137 (and R138's other cases): with lr in neither band, exact aliasing included,
LADD and LSUB leave in r the limbs, and in COUT the bit, that the same command leaves with a destination
d disjoint from both sources. -/
def Obligations.AliasedResultIsTheDisjointResult : Prop :=
  ∀ (op : Instr) (s : State) (d : Limb), op = .ladd ∨ op = .lsub → s.Idle → s.n.toNat ≤ s.grant →
    acceptCode op s = .none → acceptCode op { s with rptr := d } = .none →
    Written s.lm s.aptr.toNat s.n.toNat → Written s.lm s.bptr.toNat s.n.toNat →
    ¬ InBand s.rptr.toNat s.aptr.toNat s.n.toNat → ¬ InBand s.rptr.toNat s.bptr.toNat s.n.toNat →
    Disjoint d.toNat s.n.toNat s.aptr.toNat s.n.toNat → Disjoint d.toNat s.n.toNat s.bptr.toNat s.n.toNat →
    ∃ t u, exec op s = .next t ∧ exec op { s with rptr := d } = .next u ∧ t.cout = u.cout ∧
      ∀ i, i < s.n.toNat → t.lm.read (s.rptr.toNat + i) = u.lm.read (d.toNat + i)

/-- 41_array_addsub.md R133: an accepted LADD or LSUB is busy exactly while fewer than n micro-steps have
been taken, and until then COUT keeps the value of the previous command. -/
def Obligations.AddSubTakesExactlyNMicroSteps : Prop :=
  ∀ (op : Instr) (s : State), op = .ladd ∨ op = .lsub → s.Idle → acceptCode op s = .none →
    Written s.lm s.aptr.toNat s.n.toNat → Written s.lm s.bptr.toNat s.n.toNat →
    ∃ t, exec op s = .next t ∧ t.eng.busy = decide (s.grant < s.n.toNat) ∧
      (s.grant < s.n.toNat → t.cout = s.cout)

/-- 41_array_addsub.md R134: the trace of a completed LADD or LSUB; it has 3·n events. -/
def Obligations.AddSubTraceIsTheFormula : Prop :=
  ∀ (op : Instr) (s t : State), op = .ladd ∨ op = .lsub → s.Idle → acceptCode op s = .none →
    s.n.toNat ≤ s.grant → exec op s = .next t →
    t.trace = s.trace ++ addSubTrace s.rptr.toNat s.aptr.toNat s.bptr.toNat s.n.toNat ∧
    t.trace.length = s.trace.length + 3 * s.n.toNat

/-- The frame of LADD and LSUB on an idle block (41_array_addsub.md R132, R135, R136): whatever the turn
grants and whether or not the command is accepted, only COUT, ERR, the ENGINE, the trace and LM may
change, RES does not, and every limb outside [RPTR, RPTR + N) reads as before. -/
def Obligations.AddSubFrame : Prop :=
  ∀ (op : Instr) (s t : State), op = .ladd ∨ op = .lsub → s.Idle → exec op s = .next t →
    t = { s with cout := t.cout, err := t.err, eng := t.eng, trace := t.trace, lm := t.lm } ∧
    ∀ p, p < s.rptr.toNat ∨ s.rptr.toNat + s.n.toNat ≤ p → t.lm.read p = s.lm.read p

/-! ### LSEL -/

/-- 42_select.md R151: the contract of the comparator and the multiplexer. -/
def Obligations.MultiplexerContract : Prop :=
  ∀ (x y : Nat) (p q : Limb), ctSel (ctEq x y) p q = if x = y then p else q

/-- 42_select.md R153, R154: LSEL's two micro-steps. ZERO clears limb i of r; SCAN writes to limb i of r
the table limb when e is the index, else the value r[i] has, and makes its three accesses either way;
both advance i, then e, then phase or busy as the rules say. -/
def Obligations.SelectMicroSteps : Prop :=
  (∀ s : State, s.eng.busy = true → s.eng.op = some .lsel → s.eng.phase = .zero →
    ∃ t, microStep s = .next t ∧ t.lm = s.lm.write (s.eng.lr.toNat + s.eng.i) 0#64 ∧
      t = { s with
        lm := t.lm
        trace := s.trace ++ [.wr (s.eng.lr.toNat + s.eng.i)]
        eng := if s.eng.i + 1 = s.eng.ln.toNat then { s.eng with i := 0, e := 0, phase := .scan }
          else { s.eng with i := s.eng.i + 1 } }) ∧
  (∀ (s : State) (x cur : Limb), s.eng.busy = true → s.eng.op = some .lsel → s.eng.phase = .scan →
    s.lm.read (s.eng.la.toNat + s.eng.e * s.eng.ln.toNat + s.eng.i) = some x →
    s.lm.read (s.eng.lr.toNat + s.eng.i) = some cur →
    ∃ t, microStep s = .next t ∧
      t.lm = s.lm.write (s.eng.lr.toNat + s.eng.i) (if s.eng.lidx.toNat = s.eng.e then x else cur) ∧
      t = { s with
        lm := t.lm
        trace := s.trace ++ [.rd (s.eng.la.toNat + s.eng.e * s.eng.ln.toNat + s.eng.i),
          .rd (s.eng.lr.toNat + s.eng.i), .wr (s.eng.lr.toNat + s.eng.i)]
        eng :=
          if s.eng.i + 1 = s.eng.ln.toNat then
            if s.eng.e + 1 = s.eng.lk.toNat then
              { s.eng with i := 0, e := s.eng.e + 1, busy := false, phase := .idle }
            else { s.eng with i := 0, e := s.eng.e + 1 }
          else { s.eng with i := s.eng.i + 1 } })

/-- 42_select.md R158: an accepted LSEL whose r is disjoint from the table, with the table written and
n·(k + 1) micro-steps granted, completes with entry IDX in r and every other limb unchanged. -/
def Obligations.SelectPutsTheEntryInR : Prop :=
  ∀ s : State, s.Idle → acceptCode .lsel s = .none → s.n.toNat * (s.k.toNat + 1) ≤ s.grant →
    Disjoint s.rptr.toNat s.n.toNat s.aptr.toNat (s.n.toNat * s.k.toNat) →
    Written s.lm s.aptr.toNat (s.n.toNat * s.k.toNat) →
    ∃ t, exec .lsel s = .next t ∧ t.eng.busy = false ∧ t.err = .none ∧
      (∀ i, i < s.n.toNat →
        t.lm.read (s.rptr.toNat + i) = s.lm.read (s.aptr.toNat + s.idx.toNat * s.n.toNat + i)) ∧
      ∀ p, p < s.rptr.toNat ∨ s.rptr.toNat + s.n.toNat ≤ p → t.lm.read p = s.lm.read p

/-- 42_select.md R155: an accepted LSEL takes n micro-steps of ZERO and n·k of SCAN, n·(k + 1) in all: it is
in phase ZERO while fewer than n have been taken, then in SCAN, and only the last one clears BUSY. -/
def Obligations.SelectTakesExactlyItsMicroSteps : Prop :=
  ∀ s : State, s.Idle → acceptCode .lsel s = .none →
    Written s.lm s.aptr.toNat (s.n.toNat * s.k.toNat) →
    s.n.toNat + s.n.toNat * s.k.toNat = s.n.toNat * (s.k.toNat + 1) ∧
    ∃ t, exec .lsel s = .next t ∧ t.eng.busy = decide (s.grant < s.n.toNat * (s.k.toNat + 1)) ∧
      t.eng.phase =
        if s.grant < s.n.toNat then .zero
        else if s.grant < s.n.toNat * (s.k.toNat + 1) then .scan
        else .idle

/-- 42_select.md R156: the trace of a completed LSEL; it has n + 3·n·k events, whatever IDX and the limbs
hold. -/
def Obligations.SelectTraceIsTheFormula : Prop :=
  ∀ s t : State, s.Idle → acceptCode .lsel s = .none → s.n.toNat * (s.k.toNat + 1) ≤ s.grant →
    exec .lsel s = .next t →
    t.trace = s.trace ++ selectTrace s.rptr.toNat s.aptr.toNat s.n.toNat s.k.toNat ∧
    t.trace.length = s.trace.length + (s.n.toNat + 3 * s.n.toNat * s.k.toNat)

/-! ### LCOPY and LZERO -/

/-- 43_copy_zero.md R172, R176: the micro-steps of LCOPY and LZERO. -/
def Obligations.CopyAndZeroMicroSteps : Prop :=
  (∀ (s : State) (x : Limb), s.eng.busy = true → s.eng.op = some .lcopy → s.eng.phase = .run →
    s.eng.i < s.eng.ln.toNat → s.lm.read (s.eng.la.toNat + s.eng.i) = some x →
    ∃ t, microStep s = .next t ∧ t.lm = s.lm.write (s.eng.lr.toNat + s.eng.i) x ∧
      t = { s with
        lm := t.lm
        trace := s.trace ++ [.rd (s.eng.la.toNat + s.eng.i), .wr (s.eng.lr.toNat + s.eng.i)]
        eng := { s.eng with
          i := s.eng.i + 1
          busy := !decide (s.eng.i + 1 = s.eng.ln.toNat)
          phase := if s.eng.i + 1 = s.eng.ln.toNat then .idle else .run } }) ∧
  (∀ s : State, s.eng.busy = true → s.eng.op = some .lzero → s.eng.phase = .run →
    s.eng.i < s.eng.ln.toNat →
    ∃ t, microStep s = .next t ∧ t.lm = s.lm.write (s.eng.lr.toNat + s.eng.i) 0#64 ∧
      t = { s with
        lm := t.lm
        trace := s.trace ++ [.wr (s.eng.lr.toNat + s.eng.i)]
        eng := { s.eng with
          i := s.eng.i + 1
          busy := !decide (s.eng.i + 1 = s.eng.ln.toNat)
          phase := if s.eng.i + 1 = s.eng.ln.toNat then .idle else .run } })

/-- 43_copy_zero.md R175: an accepted LCOPY with its source written and n micro-steps granted completes:
r is the old a, and in the band la < lr < la + n it repeats the first d = lr − la limbs of the old a;
every other limb is unchanged. -/
def Obligations.CopyResultInEveryOverlap : Prop :=
  ∀ s : State, s.Idle → acceptCode .lcopy s = .none → s.n.toNat ≤ s.grant →
    Written s.lm s.aptr.toNat s.n.toNat →
    ∃ t, exec .lcopy s = .next t ∧ t.eng.busy = false ∧ t.err = .none ∧
      (¬ InBand s.rptr.toNat s.aptr.toNat s.n.toNat → ∀ i, i < s.n.toNat →
        t.lm.read (s.rptr.toNat + i) = s.lm.read (s.aptr.toNat + i)) ∧
      (InBand s.rptr.toNat s.aptr.toNat s.n.toNat → ∀ i, i < s.n.toNat →
        t.lm.read (s.rptr.toNat + i) =
          s.lm.read (s.aptr.toNat + i % (s.rptr.toNat - s.aptr.toNat))) ∧
      ∀ p, p < s.rptr.toNat ∨ s.rptr.toNat + s.n.toNat ≤ p → t.lm.read p = s.lm.read p

/-- 43_copy_zero.md R174: the trace of a completed LCOPY; it has 2·n events. -/
def Obligations.CopyTraceIsTheFormula : Prop :=
  ∀ s t : State, s.Idle → acceptCode .lcopy s = .none → s.n.toNat ≤ s.grant → exec .lcopy s = .next t →
    t.trace = s.trace ++ copyTrace s.rptr.toNat s.aptr.toNat s.n.toNat ∧
    t.trace.length = s.trace.length + 2 * s.n.toNat

/-- 43_copy_zero.md R176, R177: an accepted LZERO with n micro-steps granted completes with every limb of
r at 0 and every other limb unchanged; with fewer it is still busy. -/
def Obligations.ZeroClearsTheArray : Prop :=
  ∀ s : State, s.Idle → acceptCode .lzero s = .none →
    ∃ t, exec .lzero s = .next t ∧ t.err = .none ∧ t.eng.busy = decide (s.grant < s.n.toNat) ∧
      (s.n.toNat ≤ s.grant → ∀ i, i < s.n.toNat → t.lm.read (s.rptr.toNat + i) = some 0#64) ∧
      ∀ p, p < s.rptr.toNat ∨ s.rptr.toNat + s.n.toNat ≤ p → t.lm.read p = s.lm.read p

/-- 43_copy_zero.md R178: the trace of a completed LZERO; it has n events. -/
def Obligations.ZeroTraceIsTheFormula : Prop :=
  ∀ s t : State, s.Idle → acceptCode .lzero s = .none → s.n.toNat ≤ s.grant → exec .lzero s = .next t →
    t.trace = s.trace ++ zeroTrace s.rptr.toNat s.n.toNat ∧ t.trace.length = s.trace.length + s.n.toNat

/-- 43_copy_zero.md R179: for arrays that are the same or disjoint, LZERO of r and then LCOPY of a to r
leave r equal to a; and a second, same LCOPY leaves the same LM as one. -/
def Obligations.ZeroThenCopyLaws : Prop :=
  ∀ s : State, s.Inv → s.Idle → acceptCode .lcopy s = .none → s.n.toNat ≤ s.grant →
    Written s.lm s.aptr.toNat s.n.toNat →
    s.rptr = s.aptr ∨ Disjoint s.rptr.toNat s.n.toNat s.aptr.toNat s.n.toNat →
    (∃ t u, exec .lzero s = .next t ∧ exec .lcopy t = .next u ∧
      ∀ i, i < s.n.toNat → u.lm.read (s.rptr.toNat + i) = u.lm.read (s.aptr.toNat + i)) ∧
    (∃ t u, exec .lcopy s = .next t ∧ exec .lcopy t = .next u ∧ u.lm = t.lm)

/-- The frame of LSEL, LCOPY and LZERO on an idle block (42_select.md R154, R157, 43_copy_zero.md R172,
R173, R177): whatever the turn grants and whether or not the command is accepted, only ERR, the ENGINE,
the trace and LM may change, RES and COUT do not, and every limb outside [RPTR, RPTR + N) reads as
before. -/
def Obligations.SelectCopyZeroFrame : Prop :=
  ∀ (op : Instr) (s t : State), op = .lsel ∨ op = .lcopy ∨ op = .lzero → s.Idle → exec op s = .next t →
    t = { s with err := t.err, eng := t.eng, trace := t.trace, lm := t.lm } ∧
    ∀ p, p < s.rptr.toNat ∨ s.rptr.toNat + s.n.toNat ≤ p → t.lm.read p = s.lm.read p

/-! ### The whole block -/

/-- Every step keeps the invariant of the block's states (00_scope.md R8, R10, 10_state.md R36,
20_memory.md R50, 60_exceptions.md R195): parameters in range, registers and latched operands W-bit
numbers, the ENGINE in a phase of its command with its counters in range and the accept-time checks
still true, LM canonical and within MEM_LIMBS. -/
def Obligations.EveryStepKeepsTheInvariant : Prop :=
  ∀ s t : State, s.Inv → step s = .next t → t.Inv

/-- The invariant holds after power-up of every build, and at State.reset (70_reset_and_hazards.md
R220, R223). -/
def Obligations.PowerUpMeetsTheInvariant : Prop :=
  (∀ cfg : Config, cfg.Wf → (State.powerUp cfg).Inv) ∧ State.reset.Inv

/-- 70_reset_and_hazards.md R232: the same word written to CMD in two states that agree on all public
state, and, for LSEL, on whether IDX < K, gives the same verdict, the same trace event by event, and the
same number of micro-steps (the same BUSY, phase and counters after every grant), whatever the secrets
are. -/
def Obligations.ConstantTime : Prop :=
  ∀ (s₁ s₂ t₁ t₂ : State) (v : Limb) (g : Nat), PublicEq s₁ s₂ → Limb.Fits s₁.cfg.width v →
    (v = encode .lsel → (s₁.idx.toNat < s₁.k.toNat ↔ s₂.idx.toNat < s₂.k.toNat)) →
    step (s₁.withTurn (.regWrite .cmd v) g) = .next t₁ → step (s₂.withTurn (.regWrite .cmd v) g) = .next t₂ →
    PublicEq t₁ t₂

/-- 10_state.md R21, R38, 00_scope.md R6, R7: no command and no micro-step writes an operand register, CIN
included, or a build parameter: only the HOST's register port writes those registers, and nothing
writes those parameters. -/
def Obligations.CommandsLeaveOperandRegisters : Prop :=
  (∀ (i : Instr) (s t : State), exec i s = .next t →
    t.a = s.a ∧ t.b = s.b ∧ t.cin = s.cin ∧ t.rptr = s.rptr ∧ t.aptr = s.aptr ∧ t.bptr = s.bptr ∧ t.n = s.n ∧
      t.k = s.k ∧ t.idx = s.idx ∧ t.cfg = s.cfg) ∧
  (∀ s t : State, step s = .next t → t.cfg = s.cfg)

/-- 10_state.md R21, R28, R29, 43_copy_zero.md R172: RES and COUT are written only by the ENGINE and by
Reset: no other transaction of the HOST, taken with no micro-step after it, changes them. -/
def Obligations.OnlyTheEngineWritesResults : Prop :=
  ∀ (s t : State) (op : HostOp), op ≠ .reset → step (s.withTurn op 0) = .next t →
    t.res = s.res ∧ t.cout = s.cout

/-- 30_encoding.md R80, 20_memory.md R64: from accept on, a running command depends only on the latched
state and on LM: with any other operand registers it makes the same micro-steps, with the same accesses
and the same results. -/
def Obligations.RunningCommandReadsOnlyLatchedState : Prop :=
  ∀ (s u t : State) (j : Nat), u.eng = s.eng → u.lm = s.lm → u.cfg = s.cfg → u.res = s.res → u.cout = s.cout →
    u.trace = s.trace → runEngine j s = .next t →
    ∃ v, runEngine j u = .next v ∧ v.eng = t.eng ∧ v.lm = t.lm ∧ v.res = t.res ∧ v.cout = t.cout ∧
      v.trace = t.trace

/-- 20_memory.md R50, R58: every access of a micro-step is to a limb of the running command's footprint
and of LM. -/
def Obligations.EngineStaysInItsFootprint : Prop :=
  ∀ s t : State, s.Inv → microStep s = .next t →
    ∃ evs : List Access, t.trace = s.trace ++ evs ∧
      ∀ ev ∈ evs, s.eng.footprint ev.addr = true ∧ ev.addr < s.cfg.memLimbs

/-- 70_reset_and_hazards.md R225, R226: while a command still runs, RES and COUT hold the values they had
before: the results appear together, in the completing micro-step. -/
def Obligations.ResultsAppearOnlyAtCompletion : Prop :=
  ∀ (s t : State) (j : Nat), runEngine j s = .next t → t.eng.busy = true → t.res = s.res ∧ t.cout = s.cout

/-- 70_reset_and_hazards.md R233: an accepted command whose sources are written, given any number of
micro-steps, is busy exactly while it has taken fewer than its step count; at completion its trace has
the reads and writes of the table; a rejected command takes no micro-step and makes no access. -/
def Obligations.StepAndEventCounts : Prop :=
  ∀ (i : Instr) (s : State), s.Idle →
    (acceptCode i s = .none → sourcesWritten i s → ∃ t evs, exec i s = .next t ∧
      t.eng.busy = decide (s.grant < microStepCount i s.n.toNat s.k.toNat) ∧
      t.trace = s.trace ++ evs ∧
      (microStepCount i s.n.toNat s.k.toNat ≤ s.grant →
        evs.length = readCount i s.n.toNat s.k.toNat + writeCount i s.n.toNat s.k.toNat ∧
        evs.countP Access.isRead = readCount i s.n.toNat s.k.toNat)) ∧
    (acceptCode i s ≠ .none → ∃ t, exec i s = .next t ∧ t.eng.busy = false ∧ t.trace = s.trace)

/-- 70_reset_and_hazards.md R231, 60_exceptions.md R191: an accepted command whose sources are written
completes, whatever overlaps, as soon as the ENGINE has taken its micro-steps: given them in its turn, it
ends with BUSY = 0 and ERR = NONE. -/
def Obligations.AcceptedCommandsComplete : Prop :=
  ∀ (i : Instr) (s : State), s.Idle → acceptCode i s = .none → sourcesWritten i s →
    microStepCount i s.n.toNat s.k.toNat ≤ s.grant →
    ∃ t, exec i s = .next t ∧ t.eng.busy = false ∧ t.eng.phase = .idle ∧ t.err = .none

/-- 30_encoding.md R71: what a command reads at accept. Two idle states that agree on LM, the build,
the trace, the grant, RES and COUT, and on the registers R71 lists for the command, answer alike:
the same results, the same limbs, the same accesses and the same BUSY. -/
def Obligations.CommandsReadOnlyTheirOperands : Prop :=
  ∀ (i : Instr) (s u t : State), s.Idle → u.Idle → u.cfg = s.cfg → u.lm = s.lm → u.trace = s.trace →
    u.grant = s.grant → u.res = s.res → u.cout = s.cout →
    (match i with
      | .adc | .sbb => u.a = s.a ∧ u.b = s.b ∧ u.cin = s.cin
      | .add | .sub => u.a = s.a ∧ u.b = s.b
      | .ladd | .lsub => u.rptr = s.rptr ∧ u.aptr = s.aptr ∧ u.bptr = s.bptr ∧ u.n = s.n
      | .lsel => u.rptr = s.rptr ∧ u.aptr = s.aptr ∧ u.n = s.n ∧ u.k = s.k ∧ u.idx = s.idx
      | .lcopy => u.rptr = s.rptr ∧ u.aptr = s.aptr ∧ u.n = s.n
      | .lzero => u.rptr = s.rptr ∧ u.n = s.n) →
    exec i s = .next t →
    ∃ v, exec i u = .next v ∧ v.res = t.res ∧ v.cout = t.cout ∧ v.lm = t.lm ∧ v.trace = t.trace ∧
      v.err = t.err ∧ v.eng.busy = t.eng.busy
end

