-- ==== Sys2Proof/Laws/Limb.lean ====
section
/-!
SUPPORT. Limbs as numbers: narrowing, and the word primitives of 40_word_ops.md R100 and R101 read as
exact equations.
-/
namespace Sys2Proof.Machine

theorem modulus_pos (w : Width) : 0 < w.modulus := Nat.two_pow_pos _

theorem modulus_le (w : Width) : w.modulus ≤ 2 ^ 64 := by cases w <;> decide

@[simp] theorem narrow_toNat (w : Width) (x : Nat) : (narrow w x).toNat = x % w.modulus := by
  have h : x % w.modulus < 2 ^ 64 := Nat.lt_of_lt_of_le (Nat.mod_lt _ (modulus_pos w)) (modulus_le w)
  rw [narrow, BitVec.toNat_ofNat, Nat.mod_eq_of_lt h]

theorem narrow_fits (w : Width) (x : Nat) : Limb.Fits w (narrow w x) := by
  simpa [Limb.Fits] using Nat.mod_lt x (modulus_pos w)

/-- A W-bit value passes a W-bit port unchanged. -/
theorem narrow_of_fits {w : Width} {v : Limb} (h : Limb.Fits w v) : narrow w v.toNat = v := by
  apply BitVec.eq_of_toNat_eq
  rw [narrow_toNat, Nat.mod_eq_of_lt h]

theorem zero_fits (w : Width) : Limb.Fits w 0#64 := by cases w <;> decide

@[simp] theorem zextBit_toNat (b : Bool) : (zextBit b).toNat = b.toNat := by cases b <;> rfl

/-- Narrowing keeps every bit below W. -/
theorem narrow_getLsbD (w : Width) (x : Nat) {j : Nat} (hj : j < w.bits) :
    (narrow w x).getLsbD j = x.testBit j := by
  have hb : j < 64 := Nat.lt_of_lt_of_le hj (by cases w <;> decide)
  rw [narrow, BitVec.getLsbD_ofNat, Width.modulus, Nat.testBit_mod_two_pow]
  simp [hj, hb]

/-- adc_W, result (40_word_ops.md R100). -/
theorem adcW_toNat (w : Width) (a b : Limb) (c : Bool) :
    (adcW w a b c).1.toNat = (a.toNat + b.toNat + c.toNat) % w.modulus := by simp [adcW]

/-- adc_W, carry (40_word_ops.md R100). -/
theorem adcW_carry (w : Width) (a b : Limb) (c : Bool) :
    (adcW w a b c).2 = decide (w.modulus ≤ a.toNat + b.toNat + c.toNat) := rfl

theorem adcW_fits (w : Width) (a b : Limb) (c : Bool) : Limb.Fits w (adcW w a b c).1 := narrow_fits w _

/-- The sum of two limbs and a carry, split exactly into result and carry. -/
theorem adcW_exact {w : Width} {a b : Limb} (c : Bool) (ha : Limb.Fits w a) (hb : Limb.Fits w b) :
    (adcW w a b c).1.toNat + (adcW w a b c).2.toNat * w.modulus = a.toNat + b.toNat + c.toNat := by
  have hc : c.toNat ≤ 1 := Bool.toNat_le c
  rw [adcW_toNat, adcW_carry]
  have ha' : a.toNat < w.modulus := ha
  have hb' : b.toNat < w.modulus := hb
  by_cases h : w.modulus ≤ a.toNat + b.toNat + c.toNat
  · rw [Nat.mod_eq_sub_mod h, Nat.mod_eq_of_lt (by omega)]
    simp [h]
  · rw [Nat.mod_eq_of_lt (by omega)]
    simp [h]

/-- sbb_W, result (40_word_ops.md R101). -/
theorem sbbW_toNat (w : Width) (a b : Limb) (c : Bool) :
    ((sbbW w a b c).1.toNat : Int) = ((a.toNat : Int) - b.toNat - c.toNat) % (w.modulus : Int) := by
  have hm : (0 : Int) < (w.modulus : Int) := by exact_mod_cast modulus_pos w
  have h0 := Int.emod_nonneg ((a.toNat : Int) - b.toNat - c.toNat) hm.ne'
  have h1 := Int.emod_lt_of_pos ((a.toNat : Int) - b.toNat - c.toNat) hm
  simp only [sbbW, narrow_toNat]
  rw [Nat.mod_eq_of_lt (by omega)]
  omega

/-- sbb_W, borrow (40_word_ops.md R101). -/
theorem sbbW_borrow (w : Width) (a b : Limb) (c : Bool) :
    (sbbW w a b c).2 = decide (a.toNat < b.toNat + c.toNat) := by
  simp only [sbbW, decide_eq_decide]
  omega

theorem sbbW_fits (w : Width) (a b : Limb) (c : Bool) : Limb.Fits w (sbbW w a b c).1 := narrow_fits w _

/-- The difference of two limbs and a borrow, split exactly into result and borrow. -/
theorem sbbW_exact {w : Width} {a b : Limb} (c : Bool) (ha : Limb.Fits w a) (hb : Limb.Fits w b) :
    (sbbW w a b c).1.toNat + b.toNat + c.toNat = a.toNat + (sbbW w a b c).2.toNat * w.modulus := by
  have hc : c.toNat ≤ 1 := Bool.toNat_le c
  have h := sbbW_toNat w a b c
  rw [sbbW_borrow]
  have ha' : a.toNat < w.modulus := ha
  have hb' : b.toNat < w.modulus := hb
  by_cases hlt : a.toNat < b.toNat + c.toNat
  · rw [← Int.add_emod_right, Int.emod_eq_of_lt (by omega) (by omega)] at h
    simp [hlt]
    omega
  · rw [Int.emod_eq_of_lt (by omega) (by omega)] at h
    simp [hlt]
    omega

end Sys2Proof.Machine
end

