-- ==== Sys2Proof/Laws/Memory.lean ====
section
/-!
SUPPORT. LM: a read after a write, the canonical form, and what a written memory lists
(20_memory.md R50, R54, R55).
-/
namespace Sys2Proof.Machine

@[simp] theorem Memory.read_nil (p : Nat) : Memory.read [] p = none := rfl

/-- A limb reads as the value last written to it. -/
@[simp] theorem Memory.read_write_same (m : Memory) (p : Nat) (v : Limb) : (m.write p v).read p = some v := by
  induction m with
  | nil => simp [Memory.write, Memory.read]
  | cons c m ih =>
    obtain ⟨q, u⟩ := c
    simp only [Memory.write]
    split
    · simp [Memory.read]
    · split
      · simp [Memory.read]
      · rename_i h
        simp [Memory.read, h, ih]

/-- A write leaves every other limb alone. -/
theorem Memory.read_write_other (m : Memory) {p q : Nat} (v : Limb) (h : q ≠ p) :
    (m.write p v).read q = m.read q := by
  induction m with
  | nil => simp [Memory.write, Memory.read, h]
  | cons c m ih =>
    obtain ⟨r, u⟩ := c
    simp only [Memory.write]
    split
    · simp [Memory.read, h]
    · split
      · rename_i hpr
        subst hpr
        simp [Memory.read, h]
      · simp only [Memory.read, ih]

/-- What a read gives after a write. -/
theorem Memory.read_write (m : Memory) (p q : Nat) (v : Limb) :
    (m.write p v).read q = if q = p then some v else m.read q := by
  split
  · rename_i h
    rw [h, Memory.read_write_same]
  · rename_i h
    exact Memory.read_write_other m v h

/-- A written memory lists the new cell and cells it listed before. -/
theorem Memory.mem_write {m : Memory} {p : Nat} {v : Limb} {c : Nat × Limb} (h : c ∈ m.write p v) :
    c = (p, v) ∨ c ∈ m := by
  induction m with
  | nil => exact .inl (by simpa [Memory.write] using h)
  | cons d m ih =>
    obtain ⟨q, u⟩ := d
    simp only [Memory.write] at h
    split at h
    · simpa using h
    · split at h
      · rcases List.mem_cons.mp h with h | h
        · exact .inl h
        · exact .inr (List.mem_cons_of_mem _ h)
      · rcases List.mem_cons.mp h with h | h
        · exact .inr (by simp [h])
        · exact (ih h).imp id (List.mem_cons_of_mem _)

/-- A write keeps the canonical form. -/
theorem Memory.wf_write {m : Memory} (p : Nat) (v : Limb) (h : m.wf) : (m.write p v).wf := by
  induction m with
  | nil => simp [Memory.write, Memory.wf]
  | cons c m ih =>
    obtain ⟨q, u⟩ := c
    have hm : Memory.wf m := by simpa [Memory.wf] using (List.pairwise_cons.mp h).2
    have hq : ∀ x ∈ m, q < x.1 := fun x hx => (List.pairwise_cons.mp h).1 x.1 (List.mem_map_of_mem hx)
    simp only [Memory.write]
    split
    · rename_i hpq
      refine List.pairwise_cons.mpr ⟨fun a ha => ?_, h⟩
      rcases List.mem_cons.mp ha with rfl | ha
      · exact hpq
      · obtain ⟨x, hx, rfl⟩ := List.mem_map.mp ha
        exact hpq.trans (hq x hx)
    · split
      · rename_i hpq
        subst hpq
        exact h
      · rename_i h1 h2
        refine List.pairwise_cons.mpr ⟨fun a ha => ?_, ih hm⟩
        obtain ⟨x, hx, rfl⟩ := List.mem_map.mp ha
        rcases Memory.mem_write hx with rfl | hx
        · show q < p
          omega
        · exact hq x hx

@[simp] theorem Memory.wf_nil : Memory.wf [] := List.Pairwise.nil

/-- A limb that holds a value is listed with it. -/
theorem Memory.mem_of_read {m : Memory} {p : Nat} {v : Limb} (h : m.read p = some v) : (p, v) ∈ m := by
  induction m with
  | nil => simp at h
  | cons c m ih =>
    obtain ⟨q, u⟩ := c
    simp only [Memory.read] at h
    split at h
    · rename_i hpq
      simp_all
    · exact List.mem_cons_of_mem _ (ih h)

/-- Writing back the value a limb holds changes nothing in a canonical memory. -/
theorem Memory.write_read_self {m : Memory} {p : Nat} {v : Limb} (hw : m.wf) (h : m.read p = some v) :
    m.write p v = m := by
  induction m with
  | nil => simp at h
  | cons c m ih =>
    obtain ⟨q, u⟩ := c
    have hm : Memory.wf m := by simpa [Memory.wf] using (List.pairwise_cons.mp hw).2
    have hq : ∀ x ∈ m, q < x.1 := fun x hx => (List.pairwise_cons.mp hw).1 x.1 (List.mem_map_of_mem hx)
    simp only [Memory.read] at h
    by_cases hpq : p = q
    · subst hpq
      simp_all [Memory.write]
    · simp only [hpq, if_false] at h
      have hlt : q < p := hq _ (Memory.mem_of_read h)
      simp [Memory.write, hpq, Nat.not_lt.mpr hlt.le, ih hm h]

/-- Canonical memories that read alike are equal. -/
theorem Memory.ext_of_wf {m m' : Memory} (hm : m.wf) (hm' : m'.wf) (h : ∀ p, m.read p = m'.read p) : m = m' := by
  have lower : ∀ {q : Nat} {u : Limb} {l : Memory}, Memory.wf ((q, u) :: l) → ∀ {p : Nat} {v : Limb},
      Memory.read l p = some v → q < p := fun {q u l} hl {p v} hr =>
    (List.pairwise_cons.mp hl).1 p (List.mem_map.mpr ⟨(p, v), Memory.mem_of_read hr, rfl⟩)
  induction m generalizing m' with
  | nil =>
    cases m' with
    | nil => rfl
    | cons c m' => simpa [Memory.read] using h c.1
  | cons c m ih =>
    obtain ⟨q, u⟩ := c
    cases m' with
    | nil => simpa [Memory.read] using h q
    | cons c' m' =>
      obtain ⟨q', u'⟩ := c'
      have h1 := h q
      have h2 := h q'
      simp only [Memory.read, if_true] at h1 h2
      have hqq : q = q' := by
        by_contra hne
        rw [if_neg hne] at h1
        rw [if_neg (Ne.symm hne)] at h2
        have a1 := lower hm' h1.symm
        have a2 := lower hm h2
        omega
      subst hqq
      have hu : u = u' := by simpa using h1
      subst hu
      have tail : ∀ {l : Memory}, Memory.wf ((q, u) :: l) → Memory.wf l := fun hl => by
        simpa [Memory.wf] using (List.pairwise_cons.mp hl).2
      rw [ih (tail hm) (tail hm') fun p => ?_]
      by_cases hp : p = q
      · subst hp
        have n1 : Memory.read m p = none := by
          cases hr : Memory.read m p with
          | none => rfl
          | some v => exact absurd (lower hm hr) (lt_irrefl _)
        have n2 : Memory.read m' p = none := by
          cases hr : Memory.read m' p with
          | none => rfl
          | some v => exact absurd (lower hm' hr) (lt_irrefl _)
        rw [n1, n2]
      · simpa [Memory.read, hp] using h p

end Sys2Proof.Machine
end

