-- ==== Sys2Proof/Laws/State.lean ====
section
/-!
SUPPORT. What each named update of the state does to each field, so that no proof unfolds a record
update: every lemma is true by rfl and is a simp lemma.
-/
namespace Sys2Proof.Machine

/-! ### overrun -/

@[simp] theorem overrun_cfg (s : State) : (overrun s).cfg = s.cfg := rfl
@[simp] theorem overrun_a (s : State) : (overrun s).a = s.a := rfl
@[simp] theorem overrun_b (s : State) : (overrun s).b = s.b := rfl
@[simp] theorem overrun_cin (s : State) : (overrun s).cin = s.cin := rfl
@[simp] theorem overrun_res (s : State) : (overrun s).res = s.res := rfl
@[simp] theorem overrun_cout (s : State) : (overrun s).cout = s.cout := rfl
@[simp] theorem overrun_rptr (s : State) : (overrun s).rptr = s.rptr := rfl
@[simp] theorem overrun_aptr (s : State) : (overrun s).aptr = s.aptr := rfl
@[simp] theorem overrun_bptr (s : State) : (overrun s).bptr = s.bptr := rfl
@[simp] theorem overrun_n (s : State) : (overrun s).n = s.n := rfl
@[simp] theorem overrun_k (s : State) : (overrun s).k = s.k := rfl
@[simp] theorem overrun_idx (s : State) : (overrun s).idx = s.idx := rfl
@[simp] theorem overrun_err (s : State) : (overrun s).err = s.err := rfl
@[simp] theorem overrun_ovr (s : State) : (overrun s).ovr = true := rfl
@[simp] theorem overrun_eng (s : State) : (overrun s).eng = s.eng := rfl
@[simp] theorem overrun_lm (s : State) : (overrun s).lm = s.lm := rfl
@[simp] theorem overrun_trace (s : State) : (overrun s).trace = s.trace := rfl
@[simp] theorem overrun_returned (s : State) : (overrun s).returned = s.returned := rfl
@[simp] theorem overrun_inputs (s : State) : (overrun s).inputs = s.inputs := rfl
@[simp] theorem overrun_grant (s : State) : (overrun s).grant = s.grant := rfl

/-! ### cmdError -/

@[simp] theorem cmdError_cfg (code : Err) (s : State) : (cmdError code s).cfg = s.cfg := rfl
@[simp] theorem cmdError_a (code : Err) (s : State) : (cmdError code s).a = s.a := rfl
@[simp] theorem cmdError_b (code : Err) (s : State) : (cmdError code s).b = s.b := rfl
@[simp] theorem cmdError_cin (code : Err) (s : State) : (cmdError code s).cin = s.cin := rfl
@[simp] theorem cmdError_res (code : Err) (s : State) : (cmdError code s).res = s.res := rfl
@[simp] theorem cmdError_cout (code : Err) (s : State) : (cmdError code s).cout = s.cout := rfl
@[simp] theorem cmdError_rptr (code : Err) (s : State) : (cmdError code s).rptr = s.rptr := rfl
@[simp] theorem cmdError_aptr (code : Err) (s : State) : (cmdError code s).aptr = s.aptr := rfl
@[simp] theorem cmdError_bptr (code : Err) (s : State) : (cmdError code s).bptr = s.bptr := rfl
@[simp] theorem cmdError_n (code : Err) (s : State) : (cmdError code s).n = s.n := rfl
@[simp] theorem cmdError_k (code : Err) (s : State) : (cmdError code s).k = s.k := rfl
@[simp] theorem cmdError_idx (code : Err) (s : State) : (cmdError code s).idx = s.idx := rfl
@[simp] theorem cmdError_err (code : Err) (s : State) : (cmdError code s).err = code := rfl
@[simp] theorem cmdError_ovr (code : Err) (s : State) : (cmdError code s).ovr = s.ovr := rfl
@[simp] theorem cmdError_eng (code : Err) (s : State) : (cmdError code s).eng = s.eng := rfl
@[simp] theorem cmdError_lm (code : Err) (s : State) : (cmdError code s).lm = s.lm := rfl
@[simp] theorem cmdError_trace (code : Err) (s : State) : (cmdError code s).trace = s.trace := rfl
@[simp] theorem cmdError_returned (code : Err) (s : State) : (cmdError code s).returned = s.returned := rfl
@[simp] theorem cmdError_inputs (code : Err) (s : State) : (cmdError code s).inputs = s.inputs := rfl
@[simp] theorem cmdError_grant (code : Err) (s : State) : (cmdError code s).grant = s.grant := rfl

/-! ### accept -/

@[simp] theorem accept_cfg (op : Instr) (first : Phase) (s : State) : (accept op first s).cfg = s.cfg := rfl
@[simp] theorem accept_a (op : Instr) (first : Phase) (s : State) : (accept op first s).a = s.a := rfl
@[simp] theorem accept_b (op : Instr) (first : Phase) (s : State) : (accept op first s).b = s.b := rfl
@[simp] theorem accept_cin (op : Instr) (first : Phase) (s : State) : (accept op first s).cin = s.cin := rfl
@[simp] theorem accept_res (op : Instr) (first : Phase) (s : State) : (accept op first s).res = s.res := rfl
@[simp] theorem accept_cout (op : Instr) (first : Phase) (s : State) : (accept op first s).cout = s.cout := rfl
@[simp] theorem accept_rptr (op : Instr) (first : Phase) (s : State) : (accept op first s).rptr = s.rptr := rfl
@[simp] theorem accept_aptr (op : Instr) (first : Phase) (s : State) : (accept op first s).aptr = s.aptr := rfl
@[simp] theorem accept_bptr (op : Instr) (first : Phase) (s : State) : (accept op first s).bptr = s.bptr := rfl
@[simp] theorem accept_n (op : Instr) (first : Phase) (s : State) : (accept op first s).n = s.n := rfl
@[simp] theorem accept_k (op : Instr) (first : Phase) (s : State) : (accept op first s).k = s.k := rfl
@[simp] theorem accept_idx (op : Instr) (first : Phase) (s : State) : (accept op first s).idx = s.idx := rfl
@[simp] theorem accept_err (op : Instr) (first : Phase) (s : State) : (accept op first s).err = .none := rfl
@[simp] theorem accept_ovr (op : Instr) (first : Phase) (s : State) : (accept op first s).ovr = s.ovr := rfl
@[simp] theorem accept_lm (op : Instr) (first : Phase) (s : State) : (accept op first s).lm = s.lm := rfl
@[simp] theorem accept_trace (op : Instr) (first : Phase) (s : State) : (accept op first s).trace = s.trace := rfl
@[simp] theorem accept_returned (op : Instr) (first : Phase) (s : State) : (accept op first s).returned = s.returned := rfl
@[simp] theorem accept_inputs (op : Instr) (first : Phase) (s : State) : (accept op first s).inputs = s.inputs := rfl
@[simp] theorem accept_grant (op : Instr) (first : Phase) (s : State) : (accept op first s).grant = s.grant := rfl
@[simp] theorem accept_eng_busy (op : Instr) (first : Phase) (s : State) : (accept op first s).eng.busy = true := rfl
@[simp] theorem accept_eng_op (op : Instr) (first : Phase) (s : State) : (accept op first s).eng.op = some op := rfl
@[simp] theorem accept_eng_lr (op : Instr) (first : Phase) (s : State) : (accept op first s).eng.lr = s.rptr := rfl
@[simp] theorem accept_eng_la (op : Instr) (first : Phase) (s : State) : (accept op first s).eng.la = s.aptr := rfl
@[simp] theorem accept_eng_lb (op : Instr) (first : Phase) (s : State) : (accept op first s).eng.lb = s.bptr := rfl
@[simp] theorem accept_eng_ln (op : Instr) (first : Phase) (s : State) : (accept op first s).eng.ln = s.n := rfl
@[simp] theorem accept_eng_lk (op : Instr) (first : Phase) (s : State) : (accept op first s).eng.lk = s.k := rfl
@[simp] theorem accept_eng_lidx (op : Instr) (first : Phase) (s : State) : (accept op first s).eng.lidx = s.idx := rfl
@[simp] theorem accept_eng_wa (op : Instr) (first : Phase) (s : State) : (accept op first s).eng.wa = s.a := rfl
@[simp] theorem accept_eng_wb (op : Instr) (first : Phase) (s : State) : (accept op first s).eng.wb = s.b := rfl
@[simp] theorem accept_eng_wc (op : Instr) (first : Phase) (s : State) : (accept op first s).eng.wc = s.cin := rfl
@[simp] theorem accept_eng_phase (op : Instr) (first : Phase) (s : State) : (accept op first s).eng.phase = first := rfl
@[simp] theorem accept_eng_i (op : Instr) (first : Phase) (s : State) : (accept op first s).eng.i = 0 := rfl
@[simp] theorem accept_eng_e (op : Instr) (first : Phase) (s : State) : (accept op first s).eng.e = 0 := rfl
@[simp] theorem accept_eng_c (op : Instr) (first : Phase) (s : State) : (accept op first s).eng.c = false := rfl

/-! ### complete -/

@[simp] theorem complete_cfg (s : State) : (complete s).cfg = s.cfg := rfl
@[simp] theorem complete_a (s : State) : (complete s).a = s.a := rfl
@[simp] theorem complete_b (s : State) : (complete s).b = s.b := rfl
@[simp] theorem complete_cin (s : State) : (complete s).cin = s.cin := rfl
@[simp] theorem complete_res (s : State) : (complete s).res = s.res := rfl
@[simp] theorem complete_cout (s : State) : (complete s).cout = s.cout := rfl
@[simp] theorem complete_rptr (s : State) : (complete s).rptr = s.rptr := rfl
@[simp] theorem complete_aptr (s : State) : (complete s).aptr = s.aptr := rfl
@[simp] theorem complete_bptr (s : State) : (complete s).bptr = s.bptr := rfl
@[simp] theorem complete_n (s : State) : (complete s).n = s.n := rfl
@[simp] theorem complete_k (s : State) : (complete s).k = s.k := rfl
@[simp] theorem complete_idx (s : State) : (complete s).idx = s.idx := rfl
@[simp] theorem complete_err (s : State) : (complete s).err = s.err := rfl
@[simp] theorem complete_ovr (s : State) : (complete s).ovr = s.ovr := rfl
@[simp] theorem complete_eng (s : State) : (complete s).eng = { s.eng with busy := false, phase := .idle } := rfl
@[simp] theorem complete_lm (s : State) : (complete s).lm = s.lm := rfl
@[simp] theorem complete_trace (s : State) : (complete s).trace = s.trace := rfl
@[simp] theorem complete_returned (s : State) : (complete s).returned = s.returned := rfl
@[simp] theorem complete_inputs (s : State) : (complete s).inputs = s.inputs := rfl
@[simp] theorem complete_grant (s : State) : (complete s).grant = s.grant := rfl

/-! ### engineWrite -/

@[simp] theorem engineWrite_cfg (p : Nat) (v : Limb) (s : State) : (engineWrite p v s).cfg = s.cfg := rfl
@[simp] theorem engineWrite_a (p : Nat) (v : Limb) (s : State) : (engineWrite p v s).a = s.a := rfl
@[simp] theorem engineWrite_b (p : Nat) (v : Limb) (s : State) : (engineWrite p v s).b = s.b := rfl
@[simp] theorem engineWrite_cin (p : Nat) (v : Limb) (s : State) : (engineWrite p v s).cin = s.cin := rfl
@[simp] theorem engineWrite_res (p : Nat) (v : Limb) (s : State) : (engineWrite p v s).res = s.res := rfl
@[simp] theorem engineWrite_cout (p : Nat) (v : Limb) (s : State) : (engineWrite p v s).cout = s.cout := rfl
@[simp] theorem engineWrite_rptr (p : Nat) (v : Limb) (s : State) : (engineWrite p v s).rptr = s.rptr := rfl
@[simp] theorem engineWrite_aptr (p : Nat) (v : Limb) (s : State) : (engineWrite p v s).aptr = s.aptr := rfl
@[simp] theorem engineWrite_bptr (p : Nat) (v : Limb) (s : State) : (engineWrite p v s).bptr = s.bptr := rfl
@[simp] theorem engineWrite_n (p : Nat) (v : Limb) (s : State) : (engineWrite p v s).n = s.n := rfl
@[simp] theorem engineWrite_k (p : Nat) (v : Limb) (s : State) : (engineWrite p v s).k = s.k := rfl
@[simp] theorem engineWrite_idx (p : Nat) (v : Limb) (s : State) : (engineWrite p v s).idx = s.idx := rfl
@[simp] theorem engineWrite_err (p : Nat) (v : Limb) (s : State) : (engineWrite p v s).err = s.err := rfl
@[simp] theorem engineWrite_ovr (p : Nat) (v : Limb) (s : State) : (engineWrite p v s).ovr = s.ovr := rfl
@[simp] theorem engineWrite_eng (p : Nat) (v : Limb) (s : State) : (engineWrite p v s).eng = s.eng := rfl
@[simp] theorem engineWrite_lm (p : Nat) (v : Limb) (s : State) : (engineWrite p v s).lm = s.lm.write p v := rfl
@[simp] theorem engineWrite_trace (p : Nat) (v : Limb) (s : State) : (engineWrite p v s).trace = s.trace ++ [.wr p] := rfl
@[simp] theorem engineWrite_returned (p : Nat) (v : Limb) (s : State) : (engineWrite p v s).returned = s.returned := rfl
@[simp] theorem engineWrite_inputs (p : Nat) (v : Limb) (s : State) : (engineWrite p v s).inputs = s.inputs := rfl
@[simp] theorem engineWrite_grant (p : Nat) (v : Limb) (s : State) : (engineWrite p v s).grant = s.grant := rfl

/-! ### resetBlock -/

@[simp] theorem resetBlock_cfg (s : State) : (resetBlock s).cfg = s.cfg := rfl
@[simp] theorem resetBlock_a (s : State) : (resetBlock s).a = 0#64 := rfl
@[simp] theorem resetBlock_b (s : State) : (resetBlock s).b = 0#64 := rfl
@[simp] theorem resetBlock_cin (s : State) : (resetBlock s).cin = false := rfl
@[simp] theorem resetBlock_res (s : State) : (resetBlock s).res = 0#64 := rfl
@[simp] theorem resetBlock_cout (s : State) : (resetBlock s).cout = false := rfl
@[simp] theorem resetBlock_rptr (s : State) : (resetBlock s).rptr = 0#64 := rfl
@[simp] theorem resetBlock_aptr (s : State) : (resetBlock s).aptr = 0#64 := rfl
@[simp] theorem resetBlock_bptr (s : State) : (resetBlock s).bptr = 0#64 := rfl
@[simp] theorem resetBlock_n (s : State) : (resetBlock s).n = 0#64 := rfl
@[simp] theorem resetBlock_k (s : State) : (resetBlock s).k = 0#64 := rfl
@[simp] theorem resetBlock_idx (s : State) : (resetBlock s).idx = 0#64 := rfl
@[simp] theorem resetBlock_err (s : State) : (resetBlock s).err = .none := rfl
@[simp] theorem resetBlock_ovr (s : State) : (resetBlock s).ovr = false := rfl
@[simp] theorem resetBlock_eng (s : State) : (resetBlock s).eng = Engine.reset := rfl
@[simp] theorem resetBlock_lm (s : State) : (resetBlock s).lm = s.lm := rfl
@[simp] theorem resetBlock_trace (s : State) : (resetBlock s).trace = s.trace := rfl
@[simp] theorem resetBlock_returned (s : State) : (resetBlock s).returned = s.returned := rfl
@[simp] theorem resetBlock_inputs (s : State) : (resetBlock s).inputs = s.inputs := rfl
@[simp] theorem resetBlock_grant (s : State) : (resetBlock s).grant = s.grant := rfl

/-! ### The ENGINE after reset -/

@[simp] theorem Engine_reset_busy : Engine.reset.busy = false := rfl
@[simp] theorem Engine_reset_op : Engine.reset.op = none := rfl
@[simp] theorem Engine_reset_lr : Engine.reset.lr = 0#64 := rfl
@[simp] theorem Engine_reset_la : Engine.reset.la = 0#64 := rfl
@[simp] theorem Engine_reset_lb : Engine.reset.lb = 0#64 := rfl
@[simp] theorem Engine_reset_ln : Engine.reset.ln = 0#64 := rfl
@[simp] theorem Engine_reset_lk : Engine.reset.lk = 0#64 := rfl
@[simp] theorem Engine_reset_lidx : Engine.reset.lidx = 0#64 := rfl
@[simp] theorem Engine_reset_wa : Engine.reset.wa = 0#64 := rfl
@[simp] theorem Engine_reset_wb : Engine.reset.wb = 0#64 := rfl
@[simp] theorem Engine_reset_wc : Engine.reset.wc = false := rfl
@[simp] theorem Engine_reset_phase : Engine.reset.phase = .idle := rfl
@[simp] theorem Engine_reset_i : Engine.reset.i = 0 := rfl
@[simp] theorem Engine_reset_e : Engine.reset.e = 0 := rfl
@[simp] theorem Engine_reset_c : Engine.reset.c = false := rfl

end Sys2Proof.Machine
end

