-- ==== Sys2Proof/Laws/Engine.lean ====
section
/-!
SUPPORT. What a micro-step, a run of micro-steps and an issued command can do, said once: provers cite
these instead of unfolding the ENGINE.
-/
namespace Sys2Proof.Machine

/-! ### Sequencing -/

@[simp] theorem andThen_next (s : State) (f : State → Result) : andThen (.next s) f = f s := rfl

@[simp] theorem andThen_fault (e : Fault) (f : State → Result) : andThen (.fault e) f = .fault e := rfl

@[simp] theorem andThen_refused (e : Refusal) (f : State → Result) : andThen (.refused e) f = .refused e := rfl

theorem andThen_assoc (r : Result) (f g : State → Result) :
    andThen (andThen r f) g = andThen r fun s => andThen (f s) g := by cases r <;> rfl

theorem andThen_eq_next {r : Result} {f : State → Result} {t : State} :
    andThen r f = .next t ↔ ∃ u, r = .next u ∧ f u = .next t := by
  cases r <;> simp [andThen]

@[simp] theorem andThen_pure (r : Result) : andThen r .next = r := by cases r <;> rfl

/-! ### ENGINE reads -/

/-- An ENGINE read of a limb that holds a value. -/
theorem engineRead_some {p : Nat} {s : State} {v : Limb} (f : Limb → State → Result) (h : s.lm.read p = some v) :
    engineRead p s f = f v { s with trace := s.trace ++ [.rd p] } := by simp [engineRead, h]

/-- An ENGINE read of a limb never written. -/
theorem engineRead_none {p : Nat} {s : State} (f : Limb → State → Result) (h : s.lm.read p = none) :
    engineRead p s f = .fault .uninitRead := by simp [engineRead, h]

/-- An ENGINE read that goes on found a value. -/
theorem engineRead_eq_next {p : Nat} {s t : State} {f : Limb → State → Result} :
    engineRead p s f = .next t ↔
      ∃ v, s.lm.read p = some v ∧ f v { s with trace := s.trace ++ [.rd p] } = .next t := by
  cases h : s.lm.read p <;> simp [engineRead, h]

/-! ### Which micro-step is taken -/

section
variable {s : State} (hb : s.eng.busy = true)
include hb

theorem microStep_adc (ho : s.eng.op = some .adc) (hp : s.eng.phase = .run) : microStep s = adcStep s := by
  simp [microStep, hb, ho, hp]

theorem microStep_sbb (ho : s.eng.op = some .sbb) (hp : s.eng.phase = .run) : microStep s = sbbStep s := by
  simp [microStep, hb, ho, hp]

theorem microStep_add (ho : s.eng.op = some .add) (hp : s.eng.phase = .run) : microStep s = addStep s := by
  simp [microStep, hb, ho, hp]

theorem microStep_sub (ho : s.eng.op = some .sub) (hp : s.eng.phase = .run) : microStep s = subStep s := by
  simp [microStep, hb, ho, hp]

theorem microStep_ladd (ho : s.eng.op = some .ladd) (hp : s.eng.phase = .run) : microStep s = laddStep s := by
  simp [microStep, hb, ho, hp]

theorem microStep_lsub (ho : s.eng.op = some .lsub) (hp : s.eng.phase = .run) : microStep s = lsubStep s := by
  simp [microStep, hb, ho, hp]

theorem microStep_lsel_zero (ho : s.eng.op = some .lsel) (hp : s.eng.phase = .zero) :
    microStep s = lselZeroStep s := by simp [microStep, hb, ho, hp]

theorem microStep_lsel_scan (ho : s.eng.op = some .lsel) (hp : s.eng.phase = .scan) :
    microStep s = lselScanStep s := by simp [microStep, hb, ho, hp]

theorem microStep_lcopy (ho : s.eng.op = some .lcopy) (hp : s.eng.phase = .run) : microStep s = lcopyStep s := by
  simp [microStep, hb, ho, hp]

theorem microStep_lzero (ho : s.eng.op = some .lzero) (hp : s.eng.phase = .run) : microStep s = lzeroStep s := by
  simp [microStep, hb, ho, hp]

end

/-- An idle ENGINE has no transition. -/
theorem microStep_idle {s : State} (h : s.eng.busy = false) : microStep s = .next s := by simp [microStep, h]

/-- Everything a micro-step that answers a next state can be: nothing, or the micro-step of the latched
command in a phase that has one. -/
theorem microStep_cases {s t : State} (h : microStep s = .next t) :
    t = s ∨ s.eng.busy = true ∧
      ((s.eng.phase = .run ∧
          ((s.eng.op = some .adc ∧ adcStep s = .next t) ∨ (s.eng.op = some .sbb ∧ sbbStep s = .next t) ∨
           (s.eng.op = some .add ∧ addStep s = .next t) ∨ (s.eng.op = some .sub ∧ subStep s = .next t) ∨
           (s.eng.op = some .ladd ∧ laddStep s = .next t) ∨ (s.eng.op = some .lsub ∧ lsubStep s = .next t) ∨
           (s.eng.op = some .lcopy ∧ lcopyStep s = .next t) ∨ (s.eng.op = some .lzero ∧ lzeroStep s = .next t))) ∨
       (s.eng.op = some .lsel ∧
          ((s.eng.phase = .zero ∧ lselZeroStep s = .next t) ∨ (s.eng.phase = .scan ∧ lselScanStep s = .next t)))) := by
  unfold microStep at h
  split at h
  · rename_i hb
    split at h <;> rename_i ho hp <;> simp_all
  · left
    simpa using h.symm

/-! ### What each micro-step does -/

/-- An enabled micro-step of LADD or LSUB whose two limbs hold values (41_array_addsub.md R132). -/
theorem addSubStep_eq {prim : Width → Limb → Limb → Bool → Limb × Bool} {s : State} {x y : Limb}
    (hi : s.eng.i < s.eng.ln.toNat) (hx : s.lm.read (s.eng.la.toNat + s.eng.i) = some x)
    (hy : s.lm.read (s.eng.lb.toNat + s.eng.i) = some y) :
    addSubStep prim s = .next { s with
      lm := s.lm.write (s.eng.lr.toNat + s.eng.i) (prim s.cfg.width x y s.eng.c).1
      trace := s.trace ++ [.rd (s.eng.la.toNat + s.eng.i), .rd (s.eng.lb.toNat + s.eng.i), .wr (s.eng.lr.toNat + s.eng.i)]
      cout := if s.eng.i + 1 = s.eng.ln.toNat then (prim s.cfg.width x y s.eng.c).2 else s.cout
      eng := { s.eng with
        c := (prim s.cfg.width x y s.eng.c).2
        i := s.eng.i + 1
        busy := if s.eng.i + 1 = s.eng.ln.toNat then false else s.eng.busy
        phase := if s.eng.i + 1 = s.eng.ln.toNat then .idle else s.eng.phase } } := by
  rw [addSubStep, if_pos hi, engineRead_some _ hx, engineRead_some _ (by exact hy)]
  by_cases h : s.eng.i + 1 = s.eng.ln.toNat <;> simp [h, engineWrite, complete]

/-- A micro-step of LADD or LSUB that goes on was not enabled or found both limbs. -/
theorem addSubStep_inv {prim : Width → Limb → Limb → Bool → Limb × Bool} {s t : State}
    (h : addSubStep prim s = .next t) :
    (¬ s.eng.i < s.eng.ln.toNat ∧ t = s) ∨
      (s.eng.i < s.eng.ln.toNat ∧ ∃ x y, s.lm.read (s.eng.la.toNat + s.eng.i) = some x ∧
        s.lm.read (s.eng.lb.toNat + s.eng.i) = some y) := by
  by_cases hi : s.eng.i < s.eng.ln.toNat
  · right
    rw [addSubStep, if_pos hi, engineRead_eq_next] at h
    obtain ⟨x, hx, h⟩ := h
    obtain ⟨y, hy, -⟩ := engineRead_eq_next.mp h
    exact ⟨hi, x, y, hx, hy⟩
  · left
    rw [addSubStep, if_neg hi] at h
    exact ⟨hi, by simpa using h.symm⟩

/-- LSEL's ZERO micro-step (42_select.md R153). -/
theorem lselZeroStep_eq (s : State) :
    lselZeroStep s = .next { s with
      lm := s.lm.write (s.eng.lr.toNat + s.eng.i) 0#64
      trace := s.trace ++ [.wr (s.eng.lr.toNat + s.eng.i)]
      eng := if s.eng.i + 1 = s.eng.ln.toNat then { s.eng with i := 0, e := 0, phase := .scan }
        else { s.eng with i := s.eng.i + 1 } } := by
  by_cases h : s.eng.i + 1 = s.eng.ln.toNat <;> simp [lselZeroStep, h, engineWrite]

/-- LSEL's SCAN micro-step when both limbs hold values (42_select.md R154). -/
theorem lselScanStep_eq {s : State} {x cur : Limb}
    (hx : s.lm.read (s.eng.la.toNat + s.eng.e * s.eng.ln.toNat + s.eng.i) = some x)
    (hc : s.lm.read (s.eng.lr.toNat + s.eng.i) = some cur) :
    lselScanStep s = .next { s with
      lm := s.lm.write (s.eng.lr.toNat + s.eng.i) (if s.eng.lidx.toNat = s.eng.e then x else cur)
      trace := s.trace ++ [.rd (s.eng.la.toNat + s.eng.e * s.eng.ln.toNat + s.eng.i), .rd (s.eng.lr.toNat + s.eng.i),
        .wr (s.eng.lr.toNat + s.eng.i)]
      eng :=
        if s.eng.i + 1 = s.eng.ln.toNat then
          if s.eng.e + 1 = s.eng.lk.toNat then { s.eng with i := 0, e := s.eng.e + 1, busy := false, phase := .idle }
          else { s.eng with i := 0, e := s.eng.e + 1 }
        else { s.eng with i := s.eng.i + 1 } } := by
  rw [lselScanStep, engineRead_some _ hx, engineRead_some _ (by exact hc)]
  by_cases h : s.eng.i + 1 = s.eng.ln.toNat <;> by_cases h' : s.eng.e + 1 = s.eng.lk.toNat <;>
    by_cases hm : s.eng.lidx.toNat = s.eng.e <;> simp [h, h', hm, lselAdvance, engineWrite, complete, ctSel, ctEq]

/-- A SCAN micro-step that goes on found both limbs. -/
theorem lselScanStep_inv {s t : State} (h : lselScanStep s = .next t) :
    ∃ x cur, s.lm.read (s.eng.la.toNat + s.eng.e * s.eng.ln.toNat + s.eng.i) = some x ∧
      s.lm.read (s.eng.lr.toNat + s.eng.i) = some cur := by
  rw [lselScanStep, engineRead_eq_next] at h
  obtain ⟨x, hx, h⟩ := h
  obtain ⟨cur, hc, -⟩ := engineRead_eq_next.mp h
  exact ⟨x, cur, hx, hc⟩

/-- An enabled LCOPY micro-step whose source limb holds a value (43_copy_zero.md R172). -/
theorem lcopyStep_eq {s : State} {x : Limb} (hi : s.eng.i < s.eng.ln.toNat)
    (hx : s.lm.read (s.eng.la.toNat + s.eng.i) = some x) :
    lcopyStep s = .next { s with
      lm := s.lm.write (s.eng.lr.toNat + s.eng.i) x
      trace := s.trace ++ [.rd (s.eng.la.toNat + s.eng.i), .wr (s.eng.lr.toNat + s.eng.i)]
      eng := { s.eng with
        i := s.eng.i + 1
        busy := if s.eng.i + 1 = s.eng.ln.toNat then false else s.eng.busy
        phase := if s.eng.i + 1 = s.eng.ln.toNat then .idle else s.eng.phase } } := by
  rw [lcopyStep, if_pos hi, engineRead_some _ hx]
  by_cases h : s.eng.i + 1 = s.eng.ln.toNat <;> simp [h, copyZeroAdvance, engineWrite, complete]

/-- An LCOPY micro-step that goes on was not enabled or found its source limb. -/
theorem lcopyStep_inv {s t : State} (h : lcopyStep s = .next t) :
    (¬ s.eng.i < s.eng.ln.toNat ∧ t = s) ∨
      (s.eng.i < s.eng.ln.toNat ∧ ∃ x, s.lm.read (s.eng.la.toNat + s.eng.i) = some x) := by
  by_cases hi : s.eng.i < s.eng.ln.toNat
  · right
    rw [lcopyStep, if_pos hi, engineRead_eq_next] at h
    obtain ⟨x, hx, -⟩ := h
    exact ⟨hi, x, hx⟩
  · left
    rw [lcopyStep, if_neg hi] at h
    exact ⟨hi, by simpa using h.symm⟩

/-- An enabled LZERO micro-step (43_copy_zero.md R176). -/
theorem lzeroStep_eq {s : State} (hi : s.eng.i < s.eng.ln.toNat) :
    lzeroStep s = .next { s with
      lm := s.lm.write (s.eng.lr.toNat + s.eng.i) 0#64
      trace := s.trace ++ [.wr (s.eng.lr.toNat + s.eng.i)]
      eng := { s.eng with
        i := s.eng.i + 1
        busy := if s.eng.i + 1 = s.eng.ln.toNat then false else s.eng.busy
        phase := if s.eng.i + 1 = s.eng.ln.toNat then .idle else s.eng.phase } } := by
  rw [lzeroStep, if_pos hi]
  by_cases h : s.eng.i + 1 = s.eng.ln.toNat <;> simp [h, copyZeroAdvance, engineWrite, complete]

/-- An LZERO micro-step that is not enabled. -/
theorem lzeroStep_done {s : State} (hi : ¬ s.eng.i < s.eng.ln.toNat) : lzeroStep s = .next s := by
  rw [lzeroStep, if_neg hi]

/-! ### Runs of micro-steps -/

@[simp] theorem runEngine_zero (s : State) : runEngine 0 s = .next s := rfl

theorem runEngine_succ (j : Nat) (s : State) : runEngine (j + 1) s = andThen (microStep s) (runEngine j) := rfl

/-- A run of micro-steps splits anywhere. -/
theorem runEngine_add (j k : Nat) (s : State) : runEngine (j + k) s = andThen (runEngine j s) (runEngine k) := by
  induction j generalizing s with
  | zero => simp
  | succ j ih =>
    rw [Nat.succ_add, runEngine_succ, runEngine_succ, andThen_assoc]
    cases h : microStep s <;> simp [ih]

/-- A run of micro-steps seen from its last one. -/
theorem runEngine_succ_last (j : Nat) (s : State) : runEngine (j + 1) s = andThen (runEngine j s) microStep := by
  rw [runEngine_add]
  congr 1
  funext t
  rw [runEngine_succ]
  cases microStep t <;> rfl

/-- An idle block stays as it is however many turns the ENGINE gets. -/
theorem runEngine_idle {s : State} (h : s.eng.busy = false) (j : Nat) : runEngine j s = .next s := by
  induction j with
  | zero => rfl
  | succ j ih => rw [runEngine_succ, microStep_idle h, andThen_next, ih]

/-- What every micro-step keeps, every run of micro-steps keeps. -/
theorem runEngine_keeps {P : State → Prop} (hP : ∀ s t, P s → microStep s = .next t → P t) {j : Nat} {s t : State}
    (hs : P s) (h : runEngine j s = .next t) : P t := by
  induction j generalizing s with
  | zero =>
    obtain rfl : s = t := by simpa using h
    exact hs
  | succ j ih =>
    obtain ⟨u, hu, h⟩ := andThen_eq_next.mp (runEngine_succ j s ▸ h)
    exact ih (hP s u hs hu) h

/-! ### The frame of the ENGINE -/

/-- A micro-step changes only RES, COUT, LM, the trace and the ENGINE's own fields. -/
theorem microStep_frame {s t : State} (h : microStep s = .next t) :
    t = { s with res := t.res, cout := t.cout, lm := t.lm, trace := t.trace, eng := t.eng } := by
  rcases microStep_cases h with
    rfl | ⟨-, ⟨-, ⟨-, h⟩ | ⟨-, h⟩ | ⟨-, h⟩ | ⟨-, h⟩ | ⟨-, h⟩ | ⟨-, h⟩ | ⟨-, h⟩ | ⟨-, h⟩⟩ | ⟨-, ⟨-, h⟩ | ⟨-, h⟩⟩⟩
  · rfl
  · obtain rfl := (Host.Outcome.next.inj h).symm; rfl
  · obtain rfl := (Host.Outcome.next.inj h).symm; rfl
  · obtain rfl := (Host.Outcome.next.inj h).symm; rfl
  · obtain rfl := (Host.Outcome.next.inj h).symm; rfl
  · rcases addSubStep_inv h with ⟨-, rfl⟩ | ⟨hi, x, y, hx, hy⟩
    · rfl
    · obtain rfl := (Host.Outcome.next.inj ((addSubStep_eq hi hx hy).symm.trans h)).symm; rfl
  · rcases addSubStep_inv h with ⟨-, rfl⟩ | ⟨hi, x, y, hx, hy⟩
    · rfl
    · obtain rfl := (Host.Outcome.next.inj ((addSubStep_eq hi hx hy).symm.trans h)).symm; rfl
  · rcases lcopyStep_inv h with ⟨-, rfl⟩ | ⟨hi, x, hx⟩
    · rfl
    · obtain rfl := (Host.Outcome.next.inj ((lcopyStep_eq hi hx).symm.trans h)).symm; rfl
  · by_cases hi : s.eng.i < s.eng.ln.toNat
    · obtain rfl := (Host.Outcome.next.inj ((lzeroStep_eq hi).symm.trans h)).symm; rfl
    · obtain rfl := (Host.Outcome.next.inj ((lzeroStep_done hi).symm.trans h)).symm; rfl
  · obtain rfl := (Host.Outcome.next.inj ((lselZeroStep_eq s).symm.trans h)).symm; rfl
  · obtain ⟨x, c, hx, hc⟩ := lselScanStep_inv h
    obtain rfl := (Host.Outcome.next.inj ((lselScanStep_eq hx hc).symm.trans h)).symm; rfl

/-- A run of micro-steps changes only RES, COUT, LM, the trace and the ENGINE's own fields. -/
theorem runEngine_frame {j : Nat} {s t : State} (h : runEngine j s = .next t) :
    t = { s with res := t.res, cout := t.cout, lm := t.lm, trace := t.trace, eng := t.eng } :=
  runEngine_keeps
    (P := fun t => t = { s with res := t.res, cout := t.cout, lm := t.lm, trace := t.trace, eng := t.eng })
    (fun u v hu hv => by
      rw [microStep_frame hv, hu])
    rfl h

/-! ### Issuing a command -/

/-- A command word written while busy is ignored with OVR. -/
theorem issue_busy {s : State} (op : Instr) (first : Phase) (verdict : Err) (h : s.eng.busy = true) :
    issue op first verdict s = overrun s := by simp [issue, h]

/-- A command that passes its checks is accepted. -/
theorem issue_accept {s : State} (op : Instr) (first : Phase) (h : s.eng.busy = false) :
    issue op first .none s = accept op first s := by simp [issue, h]

/-- A command that fails a check is rejected. -/
theorem issue_reject {s : State} (op : Instr) (first : Phase) {verdict : Err} (h : s.eng.busy = false)
    (hv : verdict ≠ .none) : issue op first verdict s = cmdError verdict s := by
  cases verdict <;> simp_all [issue]

@[simp] theorem issue_grant (op : Instr) (first : Phase) (verdict : Err) (s : State) :
    (issue op first verdict s).grant = s.grant := by
  unfold issue
  split
  · rfl
  · cases verdict <;> rfl

/-- LEN and RANGE of an array command. -/
theorem arrayVerdict_eq (range : Bool) (s : State) :
    arrayVerdict range s = if s.n.toNat = 0 then .len else if range = true then .none else .range := by
  have h : s.n = 0#64 ↔ s.n.toNat = 0 := ⟨fun h => by simp [h], fun h => BitVec.eq_of_toNat_eq (by simpa using h)⟩
  simp [arrayVerdict, h]

/-- Every meaning is: issue the command with the verdict of 30_encoding.md R76, then take the turn's
micro-steps. -/
theorem exec_eq (i : Instr) (s : State) : exec i s = finish (issue i (firstPhase i) (acceptCode i s) s) := by
  cases i with
  | adc => rfl
  | sbb => rfl
  | add => rfl
  | sub => rfl
  | ladd =>
    simp only [exec, execLadd, addSubVerdict, arrayVerdict_eq, acceptCode, isArrayCommand, rangeOk, fitsLm, firstPhase]
    by_cases h : s.n.toNat = 0
    · simp [h]
    · simp [h, ← Bool.decide_and, and_assoc]
      grind
  | lsub =>
    simp only [exec, execLsub, addSubVerdict, arrayVerdict_eq, acceptCode, isArrayCommand, rangeOk, fitsLm, firstPhase]
    by_cases h : s.n.toNat = 0
    · simp [h]
    · simp [h, ← Bool.decide_and, and_assoc]
      grind
  | lsel =>
    simp only [exec, execLsel, selectVerdict, arrayVerdict_eq, acceptCode, isArrayCommand, rangeOk, fitsLm, firstPhase]
    by_cases h : s.n.toNat = 0
    · simp [h]
    · simp [h]
      grind
  | lcopy =>
    simp only [exec, execLcopy, copyVerdict, arrayVerdict_eq, acceptCode, isArrayCommand, rangeOk, fitsLm, firstPhase]
    by_cases h : s.n.toNat = 0
    · simp [h]
    · simp [h, ← Bool.decide_and]
      grind
  | lzero =>
    simp only [exec, execLzero, zeroVerdict, arrayVerdict_eq, acceptCode, isArrayCommand, rangeOk, fitsLm, firstPhase]
    by_cases h : s.n.toNat = 0
    · simp [h]
    · simp [h]
      grind

/-- A command issued while busy: OVR is set and the running command goes on. -/
theorem exec_busy {i : Instr} {s : State} (h : s.eng.busy = true) :
    exec i s = runEngine s.grant (overrun s) := by rw [exec_eq, issue_busy _ _ _ h]; rfl

/-- A rejected command is over at once. -/
theorem finish_reject {s : State} (code : Err) (h : s.eng.busy = false) :
    finish (cmdError code s) = .next (cmdError code s) :=
  runEngine_idle (s := cmdError code s) h _

/-- A command that is accepted: latched, then the turn's micro-steps. -/
theorem exec_accept {i : Instr} {s : State} (hb : s.eng.busy = false) (ha : acceptCode i s = .none) :
    exec i s = runEngine s.grant (accept i (firstPhase i) s) := by rw [exec_eq, ha, issue_accept _ _ hb]; rfl

end Sys2Proof.Machine
end

