-- ==== Sys2Proof/Laws/PerInstr.lean ====
section
/-!
SUPPORT. One lemma per constructor of Instr: what its encoding is. An instruction is well formed, its
command word has RSV = 0 and its own opcode (30_encoding.md R70, R72), and the word decodes to it.
-/
namespace Sys2Proof.Laws.Encoding

/-- The word of an instruction. -/
def Statement (i : Instr) : Prop :=
  i.wf = true ∧ (encode i).toNat = i.opcode.toNat ∧ decode (encode i) = .ok i

theorem adc : Statement .adc := ⟨rfl, rfl, rfl⟩

theorem sbb : Statement .sbb := ⟨rfl, rfl, rfl⟩

theorem add : Statement .add := ⟨rfl, rfl, rfl⟩

theorem sub : Statement .sub := ⟨rfl, rfl, rfl⟩

theorem ladd : Statement .ladd := ⟨rfl, rfl, rfl⟩

theorem lsub : Statement .lsub := ⟨rfl, rfl, rfl⟩

theorem lsel : Statement .lsel := ⟨rfl, rfl, rfl⟩

theorem lcopy : Statement .lcopy := ⟨rfl, rfl, rfl⟩

theorem lzero : Statement .lzero := ⟨rfl, rfl, rfl⟩

end Sys2Proof.Laws.Encoding
end

