-- ==== Sys2Proof/Laws/Step.lean ====
section
/-!
SUPPORT. What one step and one transaction of the HOST do.
-/
namespace Sys2Proof.Machine

/-- With no turn of the HOST to come a step is the ENGINE's. -/
theorem step_nil {s : State} (h : s.inputs = []) : step s = microStep s := by simp [step, h]

/-- The HOST's next turn is taken from the schedule and its micro-steps are granted. -/
@[simp] theorem step_withTurn (s : State) (op : HostOp) (g : Nat) :
    step (s.withTurn op g) = transact op { s with grant := g } := rfl

@[simp] theorem transact_regWrite (slot : Slot) (v : Limb) (s : State) :
    transact (.regWrite slot v) s = hostRegWrite slot (narrow s.cfg.width v.toNat) s := rfl

@[simp] theorem transact_regRead (slot : Slot) (s : State) :
    transact (.regRead slot) s = finish { s with returned := some (readSlot s slot) } := rfl

@[simp] theorem transact_memWrite (p v : Limb) (s : State) :
    transact (.memWrite p v) s =
      andThen (hostMemWrite (narrow s.cfg.width p.toNat) (narrow s.cfg.width v.toNat) s) finish := rfl

@[simp] theorem transact_memRead (p : Limb) (s : State) :
    transact (.memRead p) s = andThen (hostMemRead (narrow s.cfg.width p.toNat) s) finish := rfl

@[simp] theorem transact_reset (s : State) : transact .reset s = .next (resetBlock s) :=
  runEngine_idle (s := resetBlock s) rfl _

/-- What a slot reads as does not depend on the schedule. -/
@[simp] theorem readSlot_grant (s : State) (g : Nat) (slot : Slot) :
    readSlot { s with grant := g } slot = readSlot s slot := by cases slot <;> rfl

/-- A word command's one micro-step ends it, whatever is granted beyond it (40_word_ops.md R105, R107). -/
theorem wordStep_then (r : Limb × Bool) (s : State) (j : Nat) :
    andThen (wordStep r s) (runEngine j) = .next (complete { s with res := r.1, cout := r.2 }) :=
  runEngine_idle (s := complete { s with res := r.1, cout := r.2 }) rfl j

/-- With no micro-step granted a transaction is only itself. -/
theorem finish_zero {s : State} (h : s.grant = 0) : finish s = .next s := by simp [finish, h]

/-- A write to CMD is exec of a legal word, or the rejection of an illegal one. -/
theorem cmdWrite_ok {v : Limb} {i : Instr} (s : State) (h : decode v = .ok i) : cmdWrite v s = exec i s := by
  simp [cmdWrite, h]

theorem cmdWrite_error {v : Limb} {e : Illegal} (s : State) (h : decode v = .error e) :
    cmdWrite v s = finish (issueIllegal s) := by simp [cmdWrite, h]

@[simp] theorem hostRegWrite_cmd (v : Limb) (s : State) : hostRegWrite .cmd v s = cmdWrite v s := rfl

/-- A write to a slot other than CMD. -/
theorem hostRegWrite_slot {slot : Slot} (v : Limb) (s : State) (h : slot ≠ .cmd) :
    hostRegWrite slot v s = finish (writeSlot slot v s) := by
  cases slot <;> first | rfl | exact absurd rfl h

/-- A write to a slot other than CMD changes registers only: never the build, LM, the ENGINE, the trace,
the results, ERR, or what is the model's own. -/
theorem writeSlot_frame (slot : Slot) (v : Limb) (s : State) :
    writeSlot slot v s = { s with
      a := (writeSlot slot v s).a
      b := (writeSlot slot v s).b
      cin := (writeSlot slot v s).cin
      rptr := (writeSlot slot v s).rptr
      aptr := (writeSlot slot v s).aptr
      bptr := (writeSlot slot v s).bptr
      n := (writeSlot slot v s).n
      k := (writeSlot slot v s).k
      idx := (writeSlot slot v s).idx
      ovr := (writeSlot slot v s).ovr } := by
  cases slot <;> first
    | rfl
    | (simp only [writeSlot, writeOperand]; cases s.eng.busy <;> rfl)
    | (simp only [writeSlot, writeStatus]; cases v.getLsbD 8 <;> rfl)

/-- Everything a HOST memory read that goes on can do. -/
theorem hostMemRead_inv {p : Limb} {s t : State} (h : hostMemRead p s = .next t) :
    ∃ v, t = { s with returned := some v } ∧
      ((s.cfg.memLimbs ≤ p.toNat ∧ v = 0#64) ∨ (p.toNat < s.cfg.memLimbs ∧ s.lm.read p.toNat = some v)) := by
  unfold hostMemRead at h
  split at h
  · rename_i hp
    exact ⟨_, (Host.Outcome.next.inj h).symm, .inl ⟨hp, rfl⟩⟩
  · rename_i hp
    split at h
    · cases h
    · split at h
      · rename_i v hv
        exact ⟨v, (Host.Outcome.next.inj h).symm, .inr ⟨by omega, hv⟩⟩
      · cases h

/-- Everything a HOST memory write that goes on can do. -/
theorem hostMemWrite_inv {p v : Limb} {s t : State} (h : hostMemWrite p v s = .next t) :
    (s.cfg.memLimbs ≤ p.toNat ∧ t = s) ∨
      (p.toNat < s.cfg.memLimbs ∧ t = { s with lm := s.lm.write p.toNat v }) := by
  unfold hostMemWrite at h
  split at h
  · rename_i hp
    exact .inl ⟨hp, (Host.Outcome.next.inj h).symm⟩
  · rename_i hp
    split at h
    · cases h
    · exact .inr ⟨by omega, (Host.Outcome.next.inj h).symm⟩

end Sys2Proof.Machine
end

