-- ==== Sys2Proof/Machine/Assembler.lean ====
section
/-!
DEFINITION. The host assembly syntax (30_encoding.md R78, R79): one transaction or pseudo-instruction per
line, operands separated by commas, `;` starting a comment, numbers in decimal or in hexadecimal with
the prefix 0x and below 2^W. A line is a list of characters. Any other line is not a program. It is a
spelling of HostOp and Pseudo and has no meaning of its own (92_eei_decisions.md D34).
-/
namespace Sys2Proof.Machine

/-- The line without its comment (30_encoding.md R78). -/
def dropComment : List Char → List Char
  | [] => []
  | c :: cs => if c = ';' then [] else c :: dropComment cs

/-- White space between the parts of a line. -/
def isBlank (c : Char) : Bool := c = ' ' || c = '\t'

/-- The line without the white space at its start. -/
def dropBlanks : List Char → List Char
  | [] => []
  | c :: cs => if isBlank c then dropBlanks cs else c :: cs

/-- The line without the white space at its start and at its end. -/
def trimBlanks (cs : List Char) : List Char := (dropBlanks (dropBlanks cs).reverse).reverse

/-- Split a line before its first white space: the word it begins with, and the rest. -/
def splitWord : List Char → List Char × List Char
  | [] => ([], [])
  | c :: cs => if isBlank c then ([], cs) else ((c :: (splitWord cs).1), (splitWord cs).2)

/-- Split at every comma. -/
def splitCommas : List Char → List (List Char)
  | [] => [[]]
  | c :: cs =>
    if c = ',' then [] :: splitCommas cs
    else
      match splitCommas cs with
      | [] => [[c]]
      | w :: ws => (c :: w) :: ws

/-- The operands of a line: none, or the parts between its commas. -/
def operands (cs : List Char) : List (List Char) :=
  match trimBlanks cs with
  | [] => []
  | rest => (splitCommas rest).map trimBlanks

/-- A digit of the given base, 10 or 16. -/
def digit (base : Nat) (c : Char) : Option Nat :=
  let n := c.toNat
  let d :=
    if 48 ≤ n ∧ n ≤ 57 then n - 48
    else if 65 ≤ n ∧ n ≤ 70 then n - 55
    else if 97 ≤ n ∧ n ≤ 102 then n - 87
    else base
  if d < base then some d else none

/-- The value of a list of digits that follow the value `acc`. -/
def digits (base : Nat) (acc : Nat) : List Char → Option Nat
  | [] => some acc
  | c :: cs =>
    match digit base c with
    | some d => digits base (acc * base + d) cs
    | none => none

/-- An unsigned number in decimal or 0x hexadecimal. -/
def number : List Char → Option Nat
  | [] => none
  | '0' :: 'x' :: c :: cs => digits 16 0 (c :: cs)
  | c :: cs => digits 10 0 (c :: cs)

/-- An imm or addr: a number below 2^W (30_encoding.md R78). -/
def value (w : Width) (cs : List Char) : Option Limb :=
  match number cs with
  | some n => if n < w.modulus then some (BitVec.ofNat 64 n) else none
  | none => none

/-- A slot by name (10_state.md R20; slot 15 has none). -/
def slotByName : List Char → Option Slot
  | ['C', 'M', 'D'] => some .cmd
  | ['S', 'T', 'A', 'T', 'U', 'S'] => some .status
  | ['A'] => some .a
  | ['B'] => some .b
  | ['C', 'I', 'N'] => some .cin
  | ['R', 'E', 'S'] => some .res
  | ['C', 'O', 'U', 'T'] => some .cout
  | ['R', 'P', 'T', 'R'] => some .rptr
  | ['A', 'P', 'T', 'R'] => some .aptr
  | ['B', 'P', 'T', 'R'] => some .bptr
  | ['N'] => some .n
  | ['K'] => some .k
  | ['I', 'D', 'X'] => some .idx
  | ['C', 'F', 'G'] => some .cfg
  | ['M', 'E', 'M', 'S', 'Z'] => some .memsz
  | _ => none

/-- REG: a slot by name or by a number 0 to 15 (30_encoding.md R78). -/
def register (cs : List Char) : Option Slot :=
  match slotByName cs with
  | some s => some s
  | none =>
    match number cs with
    | some n => if h : n < 16 then some (Slot.ofNumber ⟨n, h⟩) else none
    | none => none

/-- Every operand is an imm or addr. -/
def values (w : Width) : List (List Char) → Option (List Limb)
  | [] => some []
  | cs :: rest =>
    match value w cs, values w rest with
    | some v, some vs => some (v :: vs)
    | _, _ => none

/-- The five transactions and `wait` (30_encoding.md R78, R79). -/
def transactionLine (w : Width) (word : List Char) (args : List (List Char)) : Option (List HostLine) :=
  match word, args with
  | ['w', 'r'], [r, v] =>
    match register r, value w v with
    | some slot, some x => some [.op (.regWrite slot x)]
    | _, _ => none
  | ['r', 'd'], [r] =>
    match register r with
    | some slot => some [.op (.regRead slot)]
    | none => none
  | ['m', 'w', 'r'], [p, v] =>
    match value w p, value w v with
    | some q, some x => some [.op (.memWrite q x)]
    | _, _ => none
  | ['m', 'r', 'd'], [p] =>
    match value w p with
    | some q => some [.op (.memRead q)]
    | none => none
  | ['r', 'e', 's', 'e', 't'], [] => some [.op .reset]
  | ['w', 'a', 'i', 't'], [] => some [.wait]
  | _, _ => none

/-- The pseudo-instructions, bare or with operands (30_encoding.md R79). -/
def pseudoOf (word : List Char) (args : List Limb) : Option Pseudo :=
  match word, args with
  | ['a', 'd', 'c'], [] => some (.cmd .adc)
  | ['s', 'b', 'b'], [] => some (.cmd .sbb)
  | ['a', 'd', 'd'], [] => some (.cmd .add)
  | ['s', 'u', 'b'], [] => some (.cmd .sub)
  | ['l', 'a', 'd', 'd'], [] => some (.cmd .ladd)
  | ['l', 's', 'u', 'b'], [] => some (.cmd .lsub)
  | ['l', 's', 'e', 'l'], [] => some (.cmd .lsel)
  | ['l', 'c', 'o', 'p', 'y'], [] => some (.cmd .lcopy)
  | ['l', 'z', 'e', 'r', 'o'], [] => some (.cmd .lzero)
  | ['a', 'd', 'c'], [a, b, c] => some (.adc a b c)
  | ['s', 'b', 'b'], [a, b, c] => some (.sbb a b c)
  | ['a', 'd', 'd'], [a, b] => some (.add a b)
  | ['s', 'u', 'b'], [a, b] => some (.sub a b)
  | ['l', 'a', 'd', 'd'], [r, a, b, n] => some (.ladd r a b n)
  | ['l', 's', 'u', 'b'], [r, a, b, n] => some (.lsub r a b n)
  | ['l', 's', 'e', 'l'], [r, t, n, k, i] => some (.lsel r t n k i)
  | ['l', 'c', 'o', 'p', 'y'], [r, a, n] => some (.lcopy r a n)
  | ['l', 'z', 'e', 'r', 'o'], [r, n] => some (.lzero r n)
  | _, _ => none

/-- One line of a program of a block with W-bit ports: nothing for a blank or comment line, the lines it
stands for otherwise, and `none` for a line that is not a program (30_encoding.md R78, R79). -/
def assembleLine (w : Width) (line : List Char) : Option (List HostLine) :=
  match trimBlanks (dropComment line) with
  | [] => some []
  | text =>
    let word := (splitWord text).1
    let args := operands (splitWord text).2
    match transactionLine w word args with
    | some lines => some lines
    | none =>
      match values w args with
      | some vs =>
        match pseudoOf word vs with
        | some p => some (Pseudo.expand p)
        | none => none
      | none => none

end Sys2Proof.Machine
end

