-- ==== Sys2Proof/Tests/Slice0.lean ====
section
/-!
SUPPORT. The model's own tests: expected values come from spec/95_test_vectors.md or from the rule that
each names. After them, for every statement of Certificates/Slice0/Obligations.lean with hypotheses, a
named witness that meets all of them.
-/
namespace Sys2Proof.Tests
open Sys2Proof Sys2Proof.Machine

/-! ### Helpers -/

/-- A block of width `w` with MEM_LIMBS = 16 and the given LM, as after power-up otherwise. -/
def block (w : Width) (m : Memory) : State := { State.powerUp ⟨w, .builtin, 16⟩ with lm := m }

/-- What `f` sees of the next state. -/
def seen {α : Type} (r : Result) (f : State → α) : Option α :=
  match r with
  | .next t => some (f t)
  | _ => none

/-- The next state, or `d` where there is none. -/
def nextOr (d : State) (r : Result) : State :=
  match r with
  | .next t => t
  | _ => d

/-- LM from a list of limbs at consecutive addresses. -/
def limbs (base : Nat) : List Nat → Memory
  | [] => []
  | v :: vs => (base, BitVec.ofNat 64 v) :: limbs (base + 1) vs

/-! ### The command word -/

/-- 30_encoding.md R72: OPCODE in bits [7:0], all other bits 0, written out bit by bit; one word per
constructor. -/
theorem test_decode_words :
    decode 0b00000001#64 = .ok .adc ∧ decode 0b00000010#64 = .ok .sbb ∧ decode 0b00000011#64 = .ok .add ∧
    decode 0b00000100#64 = .ok .sub ∧ decode 0b00010000#64 = .ok .ladd ∧ decode 0b00010001#64 = .ok .lsub ∧
    decode 0b00100000#64 = .ok .lsel ∧ decode 0b00110000#64 = .ok .lcopy ∧
    decode 0b00110001#64 = .ok .lzero := ⟨rfl, rfl, rfl, rfl, rfl, rfl, rfl, rfl, rfl⟩

/-- 30_encoding.md R73: the first opcode past each group, and the lowest and highest bit of RSV. -/
theorem test_decode_illegal :
    decode 0x00#64 = .error .reservedOpcode ∧ decode 0x05#64 = .error .reservedOpcode ∧
    decode 0x12#64 = .error .reservedOpcode ∧ decode 0x21#64 = .error .reservedOpcode ∧
    decode 0x32#64 = .error .reservedOpcode ∧ decode 0xFF#64 = .error .reservedOpcode ∧
    decode 0x101#64 = .error .reservedBits ∧ decode 0x8000000000000001#64 = .error .reservedBits :=
  ⟨rfl, rfl, rfl, rfl, rfl, rfl, rfl, rfl⟩

/-- spec/opcode_table.json's LSEL row, and the same word with a bit above the table's 32. -/
theorem test_table_word : decodeTableWord 32 0x20 = some .lsel ∧ decodeTableWord 40 0x100000020 = none := by decide

/-- 10_state.md R20: slot numbers. -/
theorem test_slot_numbers : ∀ s : Fin 16, (Slot.ofNumber s).number = s := by decide

/-! ### Well-formedness: an ill-formed term for each check -/

/-- 00_scope.md R8: MEM_LIMBS = 0 and MEM_LIMBS = 2^W are refused, 1 and 2^W − 1 are not. -/
theorem test_wf_config :
    ¬ (Config.mk .w32 .builtin 0).Wf ∧ ¬ (Config.mk .w32 .builtin (2 ^ 32)).Wf ∧ (Config.mk .w32 .builtin 1).Wf ∧
    (Config.mk .w32 .builtin (2 ^ 32 - 1)).Wf ∧ (Config.mk .w64 .fallback (2 ^ 64 - 1)).Wf := by decide

/-- 30_encoding.md R78: an imm or an addr of 2^32 is refused by a 32-bit block, 2^32 − 1 is not. -/
theorem test_wf_turn :
    (Turn.mk (.regWrite .a 0x100000000#64) 0).wf .w32 = false ∧ (Turn.mk (.memWrite 0x100000000#64 0#64) 0).wf .w32 = false ∧
    (Turn.mk (.memWrite 0#64 0x100000000#64) 0).wf .w32 = false ∧ (Turn.mk (.memRead 0x100000000#64) 0).wf .w32 = false ∧
    (Turn.mk (.memWrite 0xFFFFFFFF#64 0xFFFFFFFF#64) 0).wf .w32 = true := by decide

/-- 20_memory.md R50: a memory whose addresses do not rise is not canonical; a limb at MEM_LIMBS is
outside LM. -/
theorem test_wf_memory :
    ¬ Memory.wf [(1, 0#64), (1, 0#64)] ∧ ¬ Memory.wf [(2, 0#64), (1, 0#64)] ∧
    ¬ Memory.Fits ⟨.w32, .builtin, 16⟩ [(16, 0#64)] ∧ Memory.Fits ⟨.w32, .builtin, 16⟩ [(15, 0xFFFFFFFF#64)] := by
  decide

/-- Every instruction is well formed (30_encoding.md R71: no operand fields). -/
theorem test_wf_instr (i : Instr) : i.wf = true := by cases i <;> rfl

/-! ### The word commands (95_test_vectors.md 2.1) -/

def word (w : Width) (a b : Nat) (c : Bool) : State :=
  { block w [] with a := BitVec.ofNat 64 a, b := BitVec.ofNat 64 b, cin := c, grant := 1 }

theorem test_adc_largest_sum :
    seen (exec .adc (word .w64 0xFFFFFFFFFFFFFFFF 0xFFFFFFFFFFFFFFFF true)) (fun t => (t.res, t.cout, t.eng.busy)) =
      some (0xFFFFFFFFFFFFFFFF#64, true, false) := by decide

theorem test_adc_narrow :
    seen (exec .adc (word .w32 0xFFFFFFFF 0 true)) (fun t => (t.res, t.cout)) = some (0#64, true) := by decide

theorem test_sbb_smallest_difference :
    seen (exec .sbb (word .w32 0 0xFFFFFFFF true)) (fun t => (t.res, t.cout)) = some (0#64, true) := by decide

theorem test_sbb_program5 :
    seen (exec .sbb (word .w32 7 9 true)) (fun t => (t.res, t.cout)) = some (0xFFFFFFFD#64, true) := by decide

theorem test_add_stale_carry :
    seen (exec .add (word .w64 0xFFFFFFFFFFFFFFFF 1 true)) (fun t => (t.res, t.cout, t.cin)) =
      some (0#64, true, true) := by decide

theorem test_sub_stale_borrow :
    seen (exec .sub (word .w64 5 7 true)) (fun t => (t.res, t.cout)) = some (0xFFFFFFFFFFFFFFFE#64, true) := by decide

/-- 95_test_vectors.md 2.1: the FALLBACK borrow of 0 − 1 is bit W. -/
theorem test_fallback_borrow : sbbFallback .w32 0#64 1#64 false = (0xFFFFFFFF#64, true) := by decide

/-! ### The array commands (95_test_vectors.md 1.1, 2.2) -/

/-- S1, S2 layout: a at 0, b at 4, r at 8, N = 2. -/
def arrays (w : Width) (r a b n : Nat) (m : Memory) : State :=
  { block w m with
    rptr := BitVec.ofNat 64 r, aptr := BitVec.ofNat 64 a, bptr := BitVec.ofNat 64 b, n := BitVec.ofNat 64 n, grant := n }

def s1 : State := arrays .w64 8 0 4 2 (limbs 0 [0xFFFFFFFFFFFFFFFF, 0] ++ limbs 4 [1, 0])

theorem test_ladd_S1 :
    seen (exec .ladd s1) (fun t => (t.lm.read 8, t.lm.read 9, t.cout, t.trace)) =
      some (some 0#64, some 1#64, false, [.rd 0, .rd 4, .wr 8, .rd 1, .rd 5, .wr 9]) := by decide

/-- A9: la < lr < la + n, so step 1 adds the limb that step 0 wrote. -/
theorem test_ladd_A9_overlap :
    seen (exec .ladd (arrays .w64 1 0 10 2 (limbs 0 [1, 2] ++ limbs 10 [3, 4]))) (fun t =>
      (t.lm.read 0, t.lm.read 1, t.lm.read 2)) = some (some 1#64, some 4#64, some 8#64) := by decide

theorem test_lsub_S2 :
    seen (exec .lsub (arrays .w64 8 0 4 2 (limbs 0 [0, 0] ++ limbs 4 [1, 0]))) (fun t =>
      (t.lm.read 8, t.lm.read 9, t.cout)) = some (some 0xFFFFFFFFFFFFFFFF#64, some 0xFFFFFFFFFFFFFFFF#64, true) := by
  decide

/-- A8: a borrow absorbed in limb 1. -/
theorem test_lsub_A8 :
    seen (exec .lsub (arrays .w32 8 0 4 2 (limbs 0 [0, 2] ++ limbs 4 [1, 1]))) (fun t =>
      (t.lm.read 8, t.lm.read 9, t.cout)) = some (some 0xFFFFFFFF#64, some 0#64, false) := by decide

/-! ### LSEL (95_test_vectors.md 1.1, 2.3) -/

def select (w : Width) (r a n k idx : Nat) (m : Memory) : State :=
  { arrays w r a 0 n m with k := BitVec.ofNat 64 k, idx := BitVec.ofNat 64 idx, grant := n * (k + 1) }

theorem test_lsel_S3 :
    seen (exec .lsel (select .w64 8 0 1 4 2 (limbs 0 [10, 20, 30, 40]))) (fun t =>
      (t.lm.read 8, t.eng.busy, t.trace)) =
      some (some 30#64, false, [.wr 8, .rd 0, .rd 8, .wr 8, .rd 1, .rd 8, .wr 8, .rd 2, .rd 8, .wr 8, .rd 3, .rd 8, .wr 8]) := by
  decide

/-- L2: r overlaps entry 1, which the ZERO phase clears before SCAN reads it. -/
theorem test_lsel_L2_overlap :
    seen (exec .lsel (select .w64 1 0 1 2 1 (limbs 0 [5, 7]))) (fun t => (t.lm.read 0, t.lm.read 1)) =
      some (some 5#64, some 0#64) := by decide

/-! ### LCOPY and LZERO (95_test_vectors.md 2.4) -/

/-- Y3: a partial overlap with d = 2 repeats the first two limbs. -/
theorem test_lcopy_Y3 :
    seen (exec .lcopy (arrays .w32 2 0 0 3 (limbs 0 [1, 2, 3, 4, 5]))) (fun t => (t.lm.read 2, t.lm.read 3, t.lm.read 4)) =
      some (some 1#64, some 2#64, some 1#64) := by decide

/-- Y5: the source was never written. -/
theorem test_lcopy_Y5 :
    (match exec .lcopy (arrays .w32 0 4 0 1 []) with | .fault .uninitRead => true | _ => false) = true := by decide

/-- E6: 14 + 2 = 16 is in range; Z1's trace form. -/
theorem test_lzero_E6 :
    seen (exec .lzero (arrays .w64 14 0 0 2 [])) (fun t => (t.lm, t.eng.busy, t.trace)) =
      some ([(14, 0#64), (15, 0#64)], false, [.wr 14, .wr 15]) := by decide

/-- E5: 15 + 2 > 16. -/
theorem test_lzero_E5 :
    seen (exec .lzero (arrays .w64 15 0 0 2 [])) (fun t => (statusWord t, t.trace)) = some (0x30#64, []) := by decide

/-! ### Acceptance, registers and memory (95_test_vectors.md 2.5) -/

/-- E7, E8, E9, E10: LEN before RANGE, RANGE before INDEX, no wrap, INDEX last. -/
theorem test_checks :
    seen (exec .lzero (arrays .w64 99 0 0 0 [])) statusWord = some 0x20#64 ∧
    seen (exec .lsel (select .w64 99 0 1 0 0 [])) statusWord = some 0x30#64 ∧
    seen (exec .lsel { select .w64 0 0 (2 ^ 63) 4 0 [] with grant := 0 }) statusWord = some 0x30#64 ∧
    seen (exec .lsel (select .w64 0 0 4 4 4 [])) statusWord = some 0x40#64 := by
  decide

/-- E11, E12: CIN keeps bit 0. -/
theorem test_cin :
    seen (step ((block .w64 []).withTurn (.regWrite .cin 0xFFFFFFFFFFFFFFFE#64) 0)) (fun t => readSlot t .cin) = some 0#64 ∧
    seen (step ((block .w64 []).withTurn (.regWrite .cin 3#64) 0)) (fun t => readSlot t .cin) = some 1#64 := by decide

/-- E13: a running LZERO of 3 limbs, then N <- 5 before any micro-step. -/
def running : State := { nextOr (block .w64 []) (exec .lzero { arrays .w64 2 0 0 3 [] with grant := 0 }) with inputs := [] }

theorem test_busy_write :
    seen (step (running.withTurn (.regWrite .n 5#64) 0)) (fun t => (statusWord t, t.n)) = some (0x101#64, 3#64) ∧
    seen (step (running.withTurn (.regWrite .cmd 1#64) 3)) statusWord = some 0x100#64 := by decide

/-- E14, E15: CFG. -/
theorem test_cfg : cfgWord ⟨.w32, .builtin, 16⟩ = 0x20#64 ∧ cfgWord ⟨.w64, .fallback, 16⟩ = 0x240#64 := by decide

/-- 20_memory.md R50: beyond LM a read returns 0. -/
theorem test_memory_edge :
    seen (step ((block .w64 []).withTurn (.memRead 16#64) 0)) (·.returned) = some (some 0#64) ∧
    seen (step ((block .w64 []).withTurn (.memWrite 16#64 1#64) 0)) (·.lm) = some [] ∧
    seen (step ((block .w64 []).withTurn (.memWrite 15#64 1#64) 0)) (·.lm) = some [(15, 1#64)] := by decide

/-- 20_memory.md R60: the limb after the footprint is free, its last limb is not (Program 4's footprint
rule on `running`, [2, 5)). -/
theorem test_race :
    (match step (running.withTurn (.memWrite 4#64 1#64) 0) with | .fault .hostRace => true | _ => false) = true ∧
    seen (step (running.withTurn (.memWrite 5#64 1#64) 0)) (·.lm) = some [(5, 1#64)] := by decide

/-- 70_reset_and_hazards.md R222: one micro-step of LZERO, then Reset: its limb stays written. -/
theorem test_reset_while_busy :
    seen (step ((nextOr running (microStep running)).withTurn .reset 0)) (fun t => (t.lm, statusWord t, t.n)) =
      some ([(2, 0#64)], 0#64, 0#64) := by decide

/-- With no turn left a running command goes on by itself, and an idle block stays (10_state.md R36). -/
theorem test_no_turn :
    seen (step running) (fun t => (t.eng.i, t.lm)) = some (1, [(2, 0#64)]) ∧
    seen (step State.reset) (fun t => decide (t = State.reset)) = some true := by decide

/-- The host's placing of a table word: the very next step runs it. -/
theorem test_fetch_word :
    seen (step (State.reset.withFetchWord 32 0x3)) (fun t => (t.eng.op, t.eng.busy, statusWord t)) =
      some (some .add, false, 0#64) ∧
    seen (step (State.reset.withFetchWord 32 0x10)) statusWord = some 0x20#64 := by decide

/-- 30_encoding.md R78, R79: spellings of 95_test_vectors.md section 3. -/
theorem test_assembler :
    assembleLine .w32 "wr CIN, 0xFFFFFFFF  ; keeps bit 0".toList = some [.op (.regWrite .cin 0xFFFFFFFF#64)] ∧
    assembleLine .w32 "wr A, 0x100000000".toList = none ∧ assembleLine .w32 "mrd 8".toList = some [.op (.memRead 8#64)] ∧
    assembleLine .w64 "lzero 4, 2".toList =
      some [.op (.regWrite .rptr 4#64), .op (.regWrite .n 2#64), .op (.regWrite .cmd 0x31#64), .wait] := by decide

/-- 20_memory.md R56. -/
theorem test_byte_offsets : slotByteOffset .w64 .memsz = 112 ∧ limbByteOffset .w32 3 = 12 := by decide

/-! ### Witnesses: states that meet the hypotheses of each statement -/

/-- S1 with a grant of 1: LADD accepted and mid-run. -/
def midAdd : State := nextOr s1 (exec .ladd { s1 with grant := 1 })

def table : State := select .w32 8 0 2 4 3 (limbs 0 [0x10, 0x11, 0x20, 0x21, 0x30, 0x31, 0x40, 0x41])

def midZero : State := nextOr table (exec .lsel { table with grant := 0 })

def midScan : State := nextOr table (exec .lsel { table with grant := 2 })

def copyBand : State := arrays .w32 1 0 0 3 (limbs 0 [1, 2, 3, 4])

def copyApart : State := arrays .w32 12 0 0 4 (limbs 0 [1, 2, 3, 4])

def midCopy : State := nextOr copyBand (exec .lcopy { copyBand with grant := 0 })

theorem witness_EncodedCommandDecodesToItself : Instr.wf .lzero = true := rfl

theorem witness_LegalWordsAreExactlyTheNine :
    (block .w32 []).Idle ∧ Limb.Fits .w32 0xFFFFFFFF#64 ∧ (¬ ∃ i, decode 0xFFFFFFFF#64 = .ok i) ∧
    (¬ ∃ i, decode 0#64 = .ok i) ∧ (¬ ∃ i, decode 0x32#64 = .ok i) ∧ ¬ ∃ i, decode 0x100#64 = .ok i := by
  have h : ∀ {v : Limb} {e : Illegal}, decode v = .error e → ¬ ∃ i, decode v = .ok i := by
    rintro v e h ⟨i, hi⟩
    rw [h] at hi
    cases hi
  exact ⟨by decide, by decide, h (e := .reservedBits) rfl, h (e := .reservedOpcode) rfl, h (e := .reservedOpcode) rfl,
    h (e := .reservedBits) rfl⟩

theorem witness_StepRunsTheDecodedCommand :
    Limb.Fits .w32 0x31#64 ∧ decode 0x31#64 = .ok .lzero ∧ 0x31 % 2 ^ 32 < Width.w32.modulus ∧
    decodeTableWord 32 0x31 = some .lzero := ⟨by decide, rfl, by decide, by decide⟩

theorem witness_StepWithNoTurnIsTheEngines :
    (running.inputs = [] ∧ running.eng.busy = true) ∧ (State.reset.inputs = [] ∧ State.reset.eng.busy = false) := by
  decide

/-- The smallest and the largest build; also for PowerUpMeetsTheInvariant. -/
theorem witness_PowerUpValues : (Config.mk .w32 .fallback 1).Wf ∧ (Config.mk .w64 .builtin (2 ^ 64 - 1)).Wf := by decide

theorem witness_ResetLeavesTheCompletedPrefix :
    s1.Idle ∧ acceptCode .ladd s1 = .none ∧ acceptCode .lsub s1 = .none ∧ 1 < s1.n.toNat ∧
    (∃ t, exec .ladd { s1 with grant := s1.n.toNat } = .next t) ∧ (∃ u, exec .ladd { s1 with grant := 1 } = .next u) ∧
    (∃ t, exec .lsub { s1 with grant := s1.n.toNat } = .next t) ∧ ∃ u, exec .lsub { s1 with grant := 0 } = .next u :=
  ⟨by decide, by decide, by decide, by decide, ⟨_, rfl⟩, ⟨_, rfl⟩, ⟨_, rfl⟩, ⟨_, rfl⟩⟩

theorem witness_RegisterReads : State.reset.cfg.Wf := by decide

theorem witness_IdleRegisterWritesStore : (block .w32 []).Idle ∧ Limb.Fits (block .w32 []).cfg.width 0xFFFFFFFF#64 := by decide

theorem witness_BusyRegisterWritesOnlySetOverrun :
    (running.eng.busy = true ∧ Slot.cmd ∈ [Slot.cmd, .a, .b, .cin, .rptr, .aptr, .bptr, .n, .k, .idx] ∧
      Slot.idx ∈ [Slot.cmd, .a, .b, .cin, .rptr, .aptr, .bptr, .n, .k, .idx]) ∧
    Limb.Fits running.cfg.width 0x100#64 ∧ Slot.reserved ∈ [Slot.res, .cout, .cfg, .memsz, .reserved] := by decide

/-- While `running` holds [2, 5): its neighbours 1 and 5, the last limb 15 and, beyond LM, 16; and a limb
that holds a value. -/
theorem witness_HostMemoryAccess :
    (∀ p ∈ [1, 5, 15], p < running.cfg.memLimbs ∧ (running.eng.busy && running.eng.footprint p) = false) ∧
    Limb.Fits running.cfg.width 15#64 ∧ s1.lm.read 5 = some 0#64 ∧ (s1.eng.busy && s1.eng.footprint 5) = false ∧
    running.cfg.memLimbs ≤ (16#64).toNat ∧ Limb.Fits running.cfg.width 16#64 := by decide

/-- The first and last limbs of `running`'s footprint and of each array of `midAdd`'s. -/
theorem witness_HostAccessInFootprintIsARace :
    (running.eng.busy = true ∧ running.eng.footprint 2 = true ∧ running.eng.footprint 4 = true) ∧
    (midAdd.eng.busy = true ∧ ∀ p ∈ [0, 1, 4, 5, 8, 9], p < midAdd.cfg.memLimbs ∧ midAdd.eng.footprint p = true) ∧
    Limb.Fits running.cfg.width 4#64 := by decide

theorem witness_UnwrittenReadIsAFault :
    ((block .w64 []).lm.read 15 = none ∧ ((block .w64 []).eng.busy && (block .w64 []).eng.footprint 15) = false) ∧
    (∃ s : State, s.eng.busy = true ∧ s.eng.phase = .run ∧ s.eng.i < s.eng.ln.toNat ∧ s.eng.op = some .ladd ∧
      s.lm.read (s.eng.la.toNat + s.eng.i) = none) ∧
    (∃ s : State, s.eng.busy = true ∧ s.eng.phase = .run ∧ s.eng.i < s.eng.ln.toNat ∧ s.eng.op = some .lsub ∧
      s.lm.read (s.eng.lb.toNat + s.eng.i) = none) ∧
    (∃ s : State, s.eng.busy = true ∧ s.eng.phase = .scan ∧ s.eng.op = some .lsel ∧
      s.lm.read (s.eng.la.toNat + s.eng.e * s.eng.ln.toNat + s.eng.i) = none) ∧
    (∃ s : State, s.eng.busy = true ∧ s.eng.phase = .run ∧ s.eng.i < s.eng.ln.toNat ∧ s.eng.op = some .lcopy ∧
      s.lm.read (s.eng.la.toNat + s.eng.i) = none) :=
  ⟨by decide, ⟨{ midAdd with lm := [] }, by decide⟩,
    ⟨{ accept .lsub .run s1 with lm := limbs 0 [1, 1] }, by decide⟩, ⟨{ midScan with lm := [] }, by decide⟩,
    ⟨{ midCopy with lm := [] }, by decide⟩⟩

/-- Each error code of a legal word. -/
theorem witness_RejectedCommandSetsOnlyErr :
    (block .w64 []).Idle ∧ acceptCode .lcopy (block .w64 []) = .len ∧
    acceptCode .lzero (arrays .w64 15 0 0 2 []) = .range ∧ acceptCode .lsel (select .w64 0 0 4 4 4 []) = .index := by
  decide

theorem witness_FirstFailingCheckGivesErr : (block .w64 []).Idle ∧ Limb.Fits (block .w64 []).cfg.width 0xFFFFFFFFFFFFFFFF#64 := by
  decide

/-- One idle state in which all nine commands are accepted. -/
theorem witness_AcceptLatchesTheOperands :
    ({ table with grant := 0 } : State).Idle ∧ ({ table with grant := 0 } : State).grant = 0 ∧
    ∀ i ∈ [Instr.adc, .sbb, .add, .sub, .ladd, .lsub, .lsel, .lcopy, .lzero],
      acceptCode i { table with grant := 0 } = .none := by decide

theorem witness_CommandWhileBusyIsIgnored :
    running.eng.busy = true ∧
    (∃ t, (overrun running).ovr = true ∧ step ((overrun running).withTurn (.regWrite .status 0xFF#64) 3) = .next t ∧
      (0xFF#64).getLsbD 8 = false) ∧
    ∃ t, (overrun running).ovr = true ∧ microStep (overrun running) = .next t :=
  ⟨by decide, ⟨_, by decide, rfl, by decide⟩, ⟨_, by decide, rfl⟩⟩

theorem witness_ErrKeepsTheLastVerdict :
    (running.eng.busy = true ∧ ∃ t, step (running.withTurn (.regWrite .cmd 1#64) 3) = .next t) ∧
    ((block .w64 []).eng.busy = false ∧ ∃ t, step ((block .w64 []).withTurn (.regWrite .n 1#64) 0) = .next t) ∧
    ∃ t, microStep running = .next t := ⟨⟨by decide, _, rfl⟩, ⟨by decide, _, rfl⟩, ⟨_, rfl⟩⟩

/-- For CarryCommandsComplete, BorrowCommandsComplete, WordCommandLaws, AddAndSubIgnoreCarryIn and
WordCommandTakesOneMicroStep, at the largest operands of both widths. -/
theorem witness_WordCommands :
    ((word .w64 0xFFFFFFFFFFFFFFFF 0xFFFFFFFFFFFFFFFF true).Inv ∧ (word .w64 0xFFFFFFFFFFFFFFFF 0xFFFFFFFFFFFFFFFF true).Idle ∧
      1 ≤ (word .w64 0xFFFFFFFFFFFFFFFF 0xFFFFFFFFFFFFFFFF true).grant) ∧
    ((word .w32 0 0xFFFFFFFF true).Inv ∧ (word .w32 0 0xFFFFFFFF true).Idle ∧ 1 ≤ (word .w32 0 0xFFFFFFFF true).grant) := by
  decide

theorem witness_FallbackComputesThePrimitives :
    Limb.Fits .w32 0#64 ∧ Limb.Fits .w32 0xFFFFFFFF#64 ∧
    ((0#64).toNat : Int) - (0xFFFFFFFF#64).toNat - (true).toNat < 0 := by decide

theorem witness_WordCommandFrame :
    (word .w32 0 1 true).Idle ∧ (∃ t, exec .adc (word .w32 0 1 true) = .next t) ∧ (∃ t, exec .sbb (word .w32 0 1 true) = .next t) ∧
    (∃ t, exec .add (word .w32 0 1 true) = .next t) ∧ ∃ t, exec .sub (word .w32 0 1 true) = .next t :=
  ⟨by decide, ⟨_, rfl⟩, ⟨_, rfl⟩, ⟨_, rfl⟩, ⟨_, rfl⟩⟩

/-- The last step of an LADD, and the first of an LSUB. -/
theorem witness_AddSubMicroStep :
    (midAdd.eng.busy = true ∧ midAdd.eng.phase = .run ∧ midAdd.eng.i < midAdd.eng.ln.toNat ∧ midAdd.eng.op = some .ladd ∧
      midAdd.lm.read (midAdd.eng.la.toNat + midAdd.eng.i) = some 0#64 ∧
      midAdd.lm.read (midAdd.eng.lb.toNat + midAdd.eng.i) = some 0#64 ∧ midAdd.eng.i + 1 = midAdd.eng.ln.toNat) ∧
    ((accept .lsub .run s1).eng.busy = true ∧ (accept .lsub .run s1).eng.i < (accept .lsub .run s1).eng.ln.toNat ∧
      (accept .lsub .run s1).lm.read ((accept .lsub .run s1).eng.lb.toNat + (accept .lsub .run s1).eng.i) = some 1#64) := by
  decide

/-- A disjoint destination and, with lr = la, an exact alias; for ArrayAddSubLaw and, with d = 14 (the
last place), for AliasedResultIsTheDisjointResult; also for AddSubTakesExactlyNMicroSteps. -/
theorem witness_ArrayAddSub :
    ∀ s ∈ [s1, { s1 with rptr := 0#64 }],
      s.Inv ∧ s.Idle ∧ s.n.toNat ≤ s.grant ∧ ¬ InBand s.rptr.toNat s.aptr.toNat s.n.toNat ∧
      ¬ InBand s.rptr.toNat s.bptr.toNat s.n.toNat ∧ Written s.lm s.aptr.toNat s.n.toNat ∧
      Written s.lm s.bptr.toNat s.n.toNat ∧ acceptCode .ladd s = .none ∧ acceptCode .lsub s = .none ∧
      acceptCode .ladd { s with rptr := 14#64 } = .none ∧ acceptCode .lsub { s with rptr := 14#64 } = .none ∧
      Disjoint (14#64).toNat s.n.toNat s.aptr.toNat s.n.toNat ∧
      Disjoint (14#64).toNat s.n.toNat s.bptr.toNat s.n.toNat := by decide

/-- For AddSubTraceIsTheFormula and AddSubFrame. -/
theorem witness_AddSubTraceAndFrame :
    s1.Idle ∧ acceptCode .ladd s1 = .none ∧ s1.n.toNat ≤ s1.grant ∧ (∃ t, exec .ladd s1 = .next t) ∧
    acceptCode .lsub s1 = .none ∧ ∃ t, exec .lsub s1 = .next t :=
  ⟨by decide, by decide, by decide, ⟨_, rfl⟩, by decide, ⟨_, rfl⟩⟩

theorem witness_SelectMicroSteps :
    (midZero.eng.busy = true ∧ midZero.eng.op = some .lsel ∧ midZero.eng.phase = .zero) ∧
    (midScan.eng.busy = true ∧ midScan.eng.op = some .lsel ∧ midScan.eng.phase = .scan ∧
      midScan.lm.read (midScan.eng.la.toNat + midScan.eng.e * midScan.eng.ln.toNat + midScan.eng.i) = some 0x10#64 ∧
      midScan.lm.read (midScan.eng.lr.toNat + midScan.eng.i) = some 0#64) := by decide

/-- The last index, r directly behind the table; for SelectPutsTheEntryInR, SelectTakesExactlyItsMicroSteps
and SelectTraceIsTheFormula. -/
theorem witness_Select :
    (table.Idle ∧ acceptCode .lsel table = .none ∧ table.n.toNat * (table.k.toNat + 1) ≤ table.grant ∧
      Disjoint table.rptr.toNat table.n.toNat table.aptr.toNat (table.n.toNat * table.k.toNat) ∧
      Written table.lm table.aptr.toNat (table.n.toNat * table.k.toNat)) ∧
    ∃ t, exec .lsel table = .next t := ⟨by decide, ⟨_, rfl⟩⟩

theorem witness_CopyAndZeroMicroSteps :
    (midCopy.eng.busy = true ∧ midCopy.eng.op = some .lcopy ∧ midCopy.eng.phase = .run ∧
      midCopy.eng.i < midCopy.eng.ln.toNat ∧ midCopy.lm.read (midCopy.eng.la.toNat + midCopy.eng.i) = some 1#64) ∧
    (running.eng.busy = true ∧ running.eng.op = some .lzero ∧ running.eng.phase = .run ∧
      running.eng.i < running.eng.ln.toNat) := by decide

/-- In the band and outside it, at the end of LM; for CopyResultInEveryOverlap and CopyTraceIsTheFormula. -/
theorem witness_Copy :
    (∀ s ∈ [copyBand, copyApart], s.Idle ∧ acceptCode .lcopy s = .none ∧ s.n.toNat ≤ s.grant ∧
      Written s.lm s.aptr.toNat s.n.toNat) ∧
    InBand copyBand.rptr.toNat copyBand.aptr.toNat copyBand.n.toNat ∧
    ¬ InBand copyApart.rptr.toNat copyApart.aptr.toNat copyApart.n.toNat ∧
    (∃ t, exec .lcopy copyBand = .next t) ∧ ∃ t, exec .lcopy copyApart = .next t :=
  ⟨by decide, by decide, by decide, ⟨_, rfl⟩, ⟨_, rfl⟩⟩

/-- All of LM, and its last two limbs; for ZeroClearsTheArray and ZeroTraceIsTheFormula. -/
theorem witness_Zero :
    (∀ s ∈ [arrays .w32 0 0 0 16 [], arrays .w64 14 0 0 2 []],
      s.Idle ∧ acceptCode .lzero s = .none ∧ s.n.toNat ≤ s.grant) ∧
    ∃ t, exec .lzero (arrays .w64 14 0 0 2 []) = .next t := ⟨by decide, ⟨_, rfl⟩⟩

/-- Disjoint arrays and the same array. -/
theorem witness_ZeroThenCopyLaws :
    ∀ s ∈ [copyApart, { copyApart with rptr := 0#64 }], s.Inv ∧ s.Idle ∧ acceptCode .lcopy s = .none ∧ s.n.toNat ≤ s.grant ∧
      Written s.lm s.aptr.toNat s.n.toNat ∧
      (s.rptr = s.aptr ∨ Disjoint s.rptr.toNat s.n.toNat s.aptr.toNat s.n.toNat) := by decide

theorem witness_SelectCopyZeroFrame :
    table.Idle ∧ (∃ t, exec .lsel table = .next t) ∧ (∃ t, exec .lcopy table = .next t) ∧ ∃ t, exec .lzero table = .next t :=
  ⟨by decide, ⟨_, rfl⟩, ⟨_, rfl⟩, ⟨_, rfl⟩⟩

/-- A state mid-run, and one with a turn to come. -/
theorem witness_EveryStepKeepsTheInvariant :
    (midAdd.Inv ∧ ∃ t, step midAdd = .next t) ∧
    (s1.Inv ∧ ∃ t, step (s1.withTurn (.regWrite .cmd 0x10#64) 1) = .next t) :=
  ⟨⟨by decide, _, rfl⟩, ⟨by decide, _, rfl⟩⟩

/-- Two tables and indices that differ in every limb, one at the last index, agree on all public state. -/
theorem witness_ConstantTime :
    ∃ s₁ s₂ : State, PublicEq s₁ s₂ ∧ s₁.idx ≠ s₂.idx ∧ s₁.lm ≠ s₂.lm ∧ Limb.Fits s₁.cfg.width (encode .lsel) ∧
      (s₁.idx.toNat < s₁.k.toNat ↔ s₂.idx.toNat < s₂.k.toNat) ∧
      (∃ t, step (s₁.withTurn (.regWrite .cmd (encode .lsel)) 10) = .next t) ∧
      ∃ t, step (s₂.withTurn (.regWrite .cmd (encode .lsel)) 10) = .next t :=
  ⟨table, select .w32 8 0 2 4 0 (limbs 0 [8, 7, 6, 5, 4, 3, 2, 1]), by decide, by decide, by decide, by decide, by decide,
    ⟨_, rfl⟩, ⟨_, rfl⟩⟩

theorem witness_CommandsLeaveOperandRegisters :
    (∃ t, exec .ladd s1 = .next t) ∧ ∃ t, step midAdd = .next t := ⟨⟨_, rfl⟩, ⟨_, rfl⟩⟩

theorem witness_OnlyTheEngineWritesResults :
    HostOp.regWrite .res 1#64 ≠ .reset ∧ ∃ t, step (running.withTurn (.regWrite .res 1#64) 0) = .next t :=
  ⟨by decide, _, rfl⟩

theorem witness_RunningCommandReadsOnlyLatchedState :
    ∃ u t : State, u ≠ midAdd ∧ u.eng = midAdd.eng ∧ u.lm = midAdd.lm ∧ u.cfg = midAdd.cfg ∧ u.res = midAdd.res ∧
      u.cout = midAdd.cout ∧ u.trace = midAdd.trace ∧ runEngine 1 midAdd = .next t :=
  ⟨{ midAdd with aptr := 7#64, n := 9#64 }, _, by decide, rfl, rfl, rfl, rfl, rfl, rfl, rfl⟩

theorem witness_EngineStaysInItsFootprint : midScan.Inv ∧ ∃ t, microStep midScan = .next t := ⟨by decide, _, rfl⟩

theorem witness_ResultsAppearOnlyAtCompletion :
    ∃ t, runEngine 1 (accept .ladd .run s1) = .next t ∧ t.eng.busy = true := ⟨_, rfl, by decide⟩

/-- All nine commands accepted with their sources written, for StepAndEventCounts and
AcceptedCommandsComplete (with each command's own count granted), and a rejected one. -/
theorem witness_Counts :
    (∀ i ∈ [Instr.adc, .sbb, .add, .sub, .ladd, .lsub, .lsel, .lcopy, .lzero],
      table.Idle ∧ acceptCode i table = .none ∧ microStepCount i table.n.toNat table.k.toNat ≤ table.grant) ∧
    (sourcesWritten .lsel table ∧ sourcesWritten .ladd table ∧ sourcesWritten .lsub table ∧ sourcesWritten .lcopy table ∧
      sourcesWritten .lzero table ∧ sourcesWritten .adc table ∧ sourcesWritten .sbb table ∧ sourcesWritten .add table ∧
      sourcesWritten .sub table) ∧
    acceptCode .lsel { table with idx := 4#64 } ≠ .none := by
  have h2 : Written table.lm table.aptr.toNat table.n.toNat := by decide
  have h4 : Written table.lm table.bptr.toNat table.n.toNat := by decide
  have h8 : Written table.lm table.aptr.toNat (table.n.toNat * table.k.toNat) := by decide
  exact ⟨by decide, ⟨h8, ⟨h2, h4⟩, ⟨h2, h4⟩, h2, trivial, trivial, trivial, trivial, trivial⟩, by decide⟩

/-- `table` with every register changed that the command does not read, one such state per list of
30_encoding.md R71. -/
theorem witness_CommandsReadOnlyTheirOperands :
    ∃ word plain arr sel cpy zero : State,
      (∀ u ∈ [word, plain, arr, sel, cpy, zero], u ≠ table ∧ u.Idle ∧ u.cfg = table.cfg ∧ u.lm = table.lm ∧
        u.trace = table.trace ∧ u.grant = table.grant ∧ u.res = table.res ∧ u.cout = table.cout) ∧
      (word.a = table.a ∧ word.b = table.b ∧ word.cin = table.cin) ∧ (plain.a = table.a ∧ plain.b = table.b) ∧
      (arr.rptr = table.rptr ∧ arr.aptr = table.aptr ∧ arr.bptr = table.bptr ∧ arr.n = table.n) ∧
      (sel.rptr = table.rptr ∧ sel.aptr = table.aptr ∧ sel.n = table.n ∧ sel.k = table.k ∧ sel.idx = table.idx) ∧
      (cpy.rptr = table.rptr ∧ cpy.aptr = table.aptr ∧ cpy.n = table.n) ∧
      (zero.rptr = table.rptr ∧ zero.n = table.n) ∧ table.Idle ∧
      (∃ t, exec .adc table = .next t) ∧ (∃ t, exec .sbb table = .next t) ∧ (∃ t, exec .add table = .next t) ∧
      (∃ t, exec .sub table = .next t) ∧ (∃ t, exec .ladd table = .next t) ∧ (∃ t, exec .lsub table = .next t) ∧
      (∃ t, exec .lsel table = .next t) ∧ (∃ t, exec .lcopy table = .next t) ∧ ∃ t, exec .lzero table = .next t :=
  ⟨{ table with rptr := 9#64, aptr := 9#64, bptr := 9#64, n := 9#64, k := 9#64, idx := 9#64 }, { table with cin := true },
    { table with a := 9#64, b := 9#64, cin := true, k := 9#64, idx := 9#64 }, { table with a := 9#64, b := 9#64, bptr := 9#64 },
    { table with bptr := 9#64, k := 9#64, idx := 9#64 }, { table with aptr := 9#64, bptr := 9#64, k := 9#64, idx := 9#64 },
    by decide, by decide, by decide, by decide, by decide, by decide, by decide, by decide, ⟨_, rfl⟩, ⟨_, rfl⟩, ⟨_, rfl⟩,
    ⟨_, rfl⟩, ⟨_, rfl⟩, ⟨_, rfl⟩, ⟨_, rfl⟩, ⟨_, rfl⟩, ⟨_, rfl⟩⟩

end Sys2Proof.Tests
end

/-!
PROOFS. The invariant of the block's states, kept by every step (O48): LM, the ENGINE, a micro-step, a write
to CMD, the HOST's transactions.
-/
namespace Sys2Proof.Machine

/-! ### The invariant: LM -/

/-- A limb that holds a value holds a W-bit number. -/
theorem Memory.Fits.read {cfg : Config} {m : Memory} {p : Nat} {v : Limb} (hm : m.Fits cfg)
    (h : m.read p = some v) : Limb.Fits cfg.width v :=
  (hm _ (Memory.mem_of_read h)).2

/-- Writing a W-bit number to a limb of LM keeps LM in range. -/
theorem Memory.Fits.write {cfg : Config} {m : Memory} {p : Nat} {v : Limb} (hm : m.Fits cfg)
    (hp : p < cfg.memLimbs) (hv : Limb.Fits cfg.width v) : (m.write p v).Fits cfg := by
  intro c hc
  rcases Memory.mem_write hc with rfl | hc
  · exact ⟨hp, hv⟩
  · exact hm c hc

/-! ### The invariant: the ENGINE's legal states -/

/-- An idle ENGINE is legal in phase IDLE. -/
theorem Engine.legal_of_idle {memLimbs : Nat} {g : Engine} (hb : g.busy = false) (hp : g.phase = .idle) :
    g.legal memLimbs = true := by
  simp [Engine.legal, hb, hp]

/-- The only counter that every phase bounds is i, by ln; the carry is free. -/
theorem Engine.legal_move {memLimbs : Nat} {g : Engine} {i : Nat} (hl : g.legal memLimbs = true)
    (hi : i < g.ln.toNat) (c : Bool) : Engine.legal memLimbs { g with i := i, c := c } = true := by
  unfold Engine.legal at hl ⊢
  split at hl
  · rename_i hb
    rw [if_pos hb]
    split at hl <;> rename_i ho hp <;> simp_all
  · rename_i hb
    rw [if_neg hb]
    exact hl

/-- A running array command has its limb position in the array and its destination in LM. -/
theorem Engine.legal_destination {memLimbs : Nat} {g : Engine} {op : Instr} (hl : g.legal memLimbs = true)
    (hb : g.busy = true) (ho : g.op = some op) (ha : isArrayCommand op = true) :
    g.i < g.ln.toNat ∧ g.lr.toNat + g.ln.toNat ≤ memLimbs := by
  unfold Engine.legal at hl
  rw [if_pos hb, ho] at hl
  cases op <;> simp only [isArrayCommand] at ha <;> split at hl <;> simp_all

/-- LSEL legal in phase ZERO. -/
theorem Engine.legal_lsel_zero {memLimbs : Nat} {g : Engine} (hb : g.busy = true) (ho : g.op = some .lsel)
    (hp : g.phase = .zero) : g.legal memLimbs = true ↔
      g.i < g.ln.toNat ∧ g.e = 0 ∧ g.lr.toNat + g.ln.toNat ≤ memLimbs ∧
        g.la.toNat + g.ln.toNat * g.lk.toNat ≤ memLimbs ∧ g.lidx.toNat < g.lk.toNat := by
  simp [Engine.legal, hb, ho, hp]

/-- LSEL legal in phase SCAN. -/
theorem Engine.legal_lsel_scan {memLimbs : Nat} {g : Engine} (hb : g.busy = true) (ho : g.op = some .lsel)
    (hp : g.phase = .scan) : g.legal memLimbs = true ↔
      g.i < g.ln.toNat ∧ g.e < g.lk.toNat ∧ g.lr.toNat + g.ln.toNat ≤ memLimbs ∧
        g.la.toNat + g.ln.toNat * g.lk.toNat ≤ memLimbs ∧ g.lidx.toNat < g.lk.toNat := by
  simp [Engine.legal, hb, ho, hp]

/-- The end of a micro-step of LADD, LSUB, LCOPY and LZERO: the next limb, or completion. -/
theorem Engine.legal_advance {memLimbs : Nat} {g : Engine} (hl : g.legal memLimbs = true)
    (hi : g.i < g.ln.toNat) (c : Bool) :
    Engine.legal memLimbs { g with
      c := c
      i := g.i + 1
      busy := if g.i + 1 = g.ln.toNat then false else g.busy
      phase := if g.i + 1 = g.ln.toNat then .idle else g.phase } = true := by
  by_cases h : g.i + 1 = g.ln.toNat
  · exact Engine.legal_of_idle (if_pos h) (if_pos h)
  · simpa only [if_neg h] using Engine.legal_move hl (i := g.i + 1) (by omega) c

/-- The end of a ZERO micro-step: the next limb, or the start of SCAN. -/
theorem Engine.legal_zero_advance {memLimbs : Nat} {g : Engine} (hl : g.legal memLimbs = true)
    (hb : g.busy = true) (ho : g.op = some .lsel) (hp : g.phase = .zero) :
    Engine.legal memLimbs (if g.i + 1 = g.ln.toNat then { g with i := 0, e := 0, phase := .scan }
      else { g with i := g.i + 1 }) = true := by
  obtain ⟨hi, -, hr, ht, hx⟩ := (Engine.legal_lsel_zero hb ho hp).mp hl
  split
  · exact (Engine.legal_lsel_scan (g := { g with i := 0, e := 0, phase := .scan }) hb ho rfl).mpr
      ⟨Nat.zero_lt_of_lt hi, Nat.zero_lt_of_lt hx, hr, ht, hx⟩
  · exact Engine.legal_move hl (by omega) g.c

/-- The end of a SCAN micro-step: the next limb, the next entry, or completion. -/
theorem Engine.legal_scan_advance {memLimbs : Nat} {g : Engine} (hl : g.legal memLimbs = true)
    (hb : g.busy = true) (ho : g.op = some .lsel) (hp : g.phase = .scan) :
    Engine.legal memLimbs (if g.i + 1 = g.ln.toNat then
        if g.e + 1 = g.lk.toNat then { g with i := 0, e := g.e + 1, busy := false, phase := .idle }
        else { g with i := 0, e := g.e + 1 }
      else { g with i := g.i + 1 }) = true := by
  obtain ⟨hi, he, hr, ht, hx⟩ := (Engine.legal_lsel_scan hb ho hp).mp hl
  split
  · split
    · exact Engine.legal_of_idle rfl rfl
    · have he' : g.e + 1 < g.lk.toNat := by omega
      exact (Engine.legal_lsel_scan (g := { g with i := 0, e := g.e + 1 }) hb ho hp).mpr
        ⟨Nat.zero_lt_of_lt hi, he', hr, ht, hx⟩
  · exact Engine.legal_move hl (by omega) g.c

/-! ### The invariant: a micro-step -/

/-- What an array micro-step does to the state (one limb of LM, the trace, COUT and the ENGINE) keeps the
invariant when the limb lies in LM and the ENGINE keeps its part. -/
theorem State.Inv.engineUpdate {s : State} {g : Engine} {p : Nat} {v : Limb} (h : s.Inv) (cout : Bool)
    (trace : List Access) (hp : p < s.cfg.memLimbs) (hv : Limb.Fits s.cfg.width v)
    (hg : g.Fits s.cfg.width) (hl : g.legal s.cfg.memLimbs = true) :
    State.Inv { s with lm := s.lm.write p v, trace := trace, cout := cout, eng := g } := by
  obtain ⟨hcfg, hregs, -, -, hwf, hfit⟩ := h
  exact ⟨hcfg, hregs, hg, hl, Memory.wf_write p v hwf, hfit.write hp hv⟩

/-- The micro-step of a word command keeps the invariant when its primitive gives a W-bit number. -/
theorem wordStep_keeps_inv {r : Limb × Bool} {s t : State} (hs : s.Inv) (hr : Limb.Fits s.cfg.width r.1)
    (h : wordStep r s = .next t) : t.Inv := by
  obtain rfl := Host.Outcome.next.inj h
  obtain ⟨hcfg, ⟨ha, hb, -, hregs⟩, hg, -, hwf, hfit⟩ := hs
  exact ⟨hcfg, ⟨ha, hb, hr, hregs⟩, hg, Engine.legal_of_idle rfl rfl, hwf, hfit⟩

/-- The micro-step of LADD and LSUB keeps the invariant when the primitive gives W-bit numbers. -/
theorem addSubStep_keeps_inv {prim : Width → Limb → Limb → Bool → Limb × Bool} {op : Instr} {s t : State}
    (hprim : ∀ w x y c, Limb.Fits w (prim w x y c).1) (hs : s.Inv) (hb : s.eng.busy = true)
    (ho : s.eng.op = some op) (ha : isArrayCommand op = true) (h : addSubStep prim s = .next t) : t.Inv := by
  obtain ⟨-, -, hg, hl, -, -⟩ := id hs
  obtain ⟨-, hdst⟩ := Engine.legal_destination hl hb ho ha
  rcases addSubStep_inv h with ⟨-, rfl⟩ | ⟨hi, x, y, hx, hy⟩
  · exact hs
  · obtain rfl := Host.Outcome.next.inj ((addSubStep_eq hi hx hy).symm.trans h)
    exact hs.engineUpdate _ _ (by omega) (hprim _ _ _ _) hg (Engine.legal_advance hl hi _)

/-- LCOPY's micro-step keeps the invariant: the limb it copies comes from LM. -/
theorem lcopyStep_keeps_inv {s t : State} (hs : s.Inv) (hb : s.eng.busy = true) (ho : s.eng.op = some .lcopy)
    (h : lcopyStep s = .next t) : t.Inv := by
  obtain ⟨-, -, hg, hl, -, hfit⟩ := id hs
  obtain ⟨-, hdst⟩ := Engine.legal_destination hl hb ho rfl
  rcases lcopyStep_inv h with ⟨-, rfl⟩ | ⟨hi, x, hx⟩
  · exact hs
  · obtain rfl := Host.Outcome.next.inj ((lcopyStep_eq hi hx).symm.trans h)
    exact hs.engineUpdate _ _ (by omega) (hfit.read hx) hg (Engine.legal_advance hl hi _)

/-- LZERO's micro-step keeps the invariant. -/
theorem lzeroStep_keeps_inv {s t : State} (hs : s.Inv) (hb : s.eng.busy = true) (ho : s.eng.op = some .lzero)
    (h : lzeroStep s = .next t) : t.Inv := by
  obtain ⟨-, -, hg, hl, -, -⟩ := id hs
  obtain ⟨hi, hdst⟩ := Engine.legal_destination hl hb ho rfl
  obtain rfl := Host.Outcome.next.inj ((lzeroStep_eq hi).symm.trans h)
  exact hs.engineUpdate _ _ (by omega) (zero_fits _) hg (Engine.legal_advance hl hi _)

/-- LSEL's ZERO micro-step keeps the invariant. -/
theorem lselZeroStep_keeps_inv {s t : State} (hs : s.Inv) (hb : s.eng.busy = true)
    (ho : s.eng.op = some .lsel) (hp : s.eng.phase = .zero) (h : lselZeroStep s = .next t) : t.Inv := by
  obtain ⟨-, -, hg, hl, -, -⟩ := id hs
  obtain ⟨hi, hdst⟩ := Engine.legal_destination hl hb ho rfl
  obtain rfl := Host.Outcome.next.inj ((lselZeroStep_eq s).symm.trans h)
  refine hs.engineUpdate _ _ (by omega) (zero_fits _) ?_ (Engine.legal_zero_advance hl hb ho hp)
  split <;> exact hg

/-- LSEL's SCAN micro-step keeps the invariant: both limbs it chooses from come from LM. -/
theorem lselScanStep_keeps_inv {s t : State} (hs : s.Inv) (hb : s.eng.busy = true)
    (ho : s.eng.op = some .lsel) (hp : s.eng.phase = .scan) (h : lselScanStep s = .next t) : t.Inv := by
  obtain ⟨-, -, hg, hl, -, hfit⟩ := id hs
  obtain ⟨hi, hdst⟩ := Engine.legal_destination hl hb ho rfl
  obtain ⟨x, cur, hx, hc⟩ := lselScanStep_inv h
  obtain rfl := Host.Outcome.next.inj ((lselScanStep_eq hx hc).symm.trans h)
  refine hs.engineUpdate _ _ (by omega) ?_ ?_ (Engine.legal_scan_advance hl hb ho hp)
  · split
    · exact hfit.read hx
    · exact hfit.read hc
  · split
    · split <;> exact hg
    · exact hg

/-- Every micro-step keeps the invariant. -/
theorem microStep_keeps_inv {s t : State} (hs : s.Inv) (h : microStep s = .next t) : t.Inv := by
  rcases microStep_cases h with rfl | ⟨hb, ⟨-, hrun⟩ | ⟨ho, ⟨hp, h⟩ | ⟨hp, h⟩⟩⟩
  · exact hs
  · rcases hrun with ⟨-, h⟩ | ⟨-, h⟩ | ⟨-, h⟩ | ⟨-, h⟩ | ⟨ho, h⟩ | ⟨ho, h⟩ | ⟨ho, h⟩ | ⟨ho, h⟩
    · exact wordStep_keeps_inv hs (adcW_fits _ _ _ _) h
    · exact wordStep_keeps_inv hs (sbbW_fits _ _ _ _) h
    · exact wordStep_keeps_inv hs (adcW_fits _ _ _ _) h
    · exact wordStep_keeps_inv hs (sbbW_fits _ _ _ _) h
    · exact addSubStep_keeps_inv adcW_fits hs hb ho rfl h
    · exact addSubStep_keeps_inv sbbW_fits hs hb ho rfl h
    · exact lcopyStep_keeps_inv hs hb ho h
    · exact lzeroStep_keeps_inv hs hb ho h
  · exact lselZeroStep_keeps_inv hs hb ho hp h
  · exact lselScanStep_keeps_inv hs hb ho hp h

/-- Every run of micro-steps keeps the invariant. -/
theorem runEngine_keeps_inv {j : Nat} {s t : State} (hs : s.Inv) (h : runEngine j s = .next t) : t.Inv :=
  runEngine_keeps (fun _ _ => microStep_keeps_inv) hs h

/-- The micro-steps after a transaction keep the invariant. -/
theorem finish_keeps_inv {s t : State} (hs : s.Inv) (h : finish s = .next t) : t.Inv :=
  runEngine_keeps_inv hs h

/-! ### The invariant: a write to CMD -/

/-- What the accept-time checks of 30_encoding.md R76 have checked of an accepted command. -/
theorem acceptCode_eq_none {i : Instr} {s : State} (h : acceptCode i s = .none) :
    (isArrayCommand i = true → 0 < s.n.toNat) ∧ rangeOk i s = true ∧ (i = .lsel → s.idx.toNat < s.k.toNat) := by
  unfold acceptCode at h
  split at h
  · cases h
  · rename_i hn
    split at h
    · cases h
    · rename_i hr
      split at h
      · cases h
      · rename_i hx
        exact ⟨fun ha => Nat.pos_of_ne_zero fun h0 => hn ⟨ha, h0⟩, by simpa using hr,
          fun hi => Nat.lt_of_not_le fun hk => hx ⟨hi, hk⟩⟩

/-- An accepted command leaves the ENGINE legal: its first phase, its counters at 0, its checks made. -/
theorem accept_legal {i : Instr} {s : State} (h : acceptCode i s = .none) :
    (accept i (firstPhase i) s).eng.legal s.cfg.memLimbs = true := by
  obtain ⟨hn, hr, hx⟩ := acceptCode_eq_none h
  cases i <;> simp_all [Engine.legal, accept, firstPhase, rangeOk, isArrayCommand]

/-- Accepting a command keeps the invariant. -/
theorem accept_keeps_inv {i : Instr} {s : State} (hs : s.Inv) (h : acceptCode i s = .none) :
    (accept i (firstPhase i) s).Inv := by
  obtain ⟨hcfg, hregs, -, -, hwf, hfit⟩ := hs
  obtain ⟨ha, hb, -, hrptr, haptr, hbptr, hn, hk, hidx, -⟩ := id hregs
  exact ⟨hcfg, hregs, ⟨hrptr, haptr, hbptr, hn, hk, hidx, ha, hb⟩, accept_legal h, hwf, hfit⟩

/-- Issuing a command keeps the invariant, whatever the verdict. -/
theorem issue_keeps_inv {i : Instr} {s : State} (hs : s.Inv) :
    (issue i (firstPhase i) (acceptCode i s) s).Inv := by
  cases hb : s.eng.busy with
  | true =>
    rw [issue_busy _ _ _ hb]
    exact hs
  | false =>
    by_cases ha : acceptCode i s = .none
    · rw [ha, issue_accept _ _ hb]
      exact accept_keeps_inv hs ha
    · rw [issue_reject _ _ hb ha]
      exact hs

/-- A legal command word written to CMD keeps the invariant. -/
theorem exec_keeps_inv {i : Instr} {s t : State} (hs : s.Inv) (h : exec i s = .next t) : t.Inv :=
  finish_keeps_inv (issue_keeps_inv hs) (exec_eq i s ▸ h)

/-- A rejected or ignored illegal word keeps the invariant. -/
theorem issueIllegal_keeps_inv {s : State} (hs : s.Inv) : (issueIllegal s).Inv := by
  unfold issueIllegal
  split <;> exact hs

/-- Every write to CMD keeps the invariant. -/
theorem cmdWrite_keeps_inv {v : Limb} {s t : State} (hs : s.Inv) (h : cmdWrite v s = .next t) : t.Inv := by
  cases hd : decode v with
  | ok i => exact exec_keeps_inv hs (cmdWrite_ok s hd ▸ h)
  | error e => exact finish_keeps_inv (issueIllegal_keeps_inv hs) (cmdWrite_error s hd ▸ h)

/-! ### The invariant: the HOST's transactions -/

/-- A write to an operand register keeps the invariant when what it would store does. -/
theorem writeOperand_keeps_inv {stored s : State} (hs : s.Inv) (h : stored.Inv) : (writeOperand stored s).Inv := by
  unfold writeOperand
  split
  · exact hs
  · exact h

/-- A write to STATUS keeps the invariant. -/
theorem writeStatus_keeps_inv {v : Limb} {s : State} (hs : s.Inv) : (writeStatus v s).Inv := by
  unfold writeStatus
  split <;> exact hs

/-- A W-bit value written to a slot keeps the invariant. -/
theorem writeSlot_keeps_inv {slot : Slot} {v : Limb} {s : State} (hs : s.Inv) (hv : Limb.Fits s.cfg.width v) :
    (writeSlot slot v s).Inv := by
  obtain ⟨hcfg, hregs, heng⟩ := id hs
  obtain ⟨ha, hb, hres, hrptr, haptr, hbptr, hn, hk, hidx, hret⟩ := id hregs
  cases slot with
  | status => exact writeStatus_keeps_inv hs
  | a => exact writeOperand_keeps_inv hs ⟨hcfg, ⟨hv, hb, hres, hrptr, haptr, hbptr, hn, hk, hidx, hret⟩, heng⟩
  | b => exact writeOperand_keeps_inv hs ⟨hcfg, ⟨ha, hv, hres, hrptr, haptr, hbptr, hn, hk, hidx, hret⟩, heng⟩
  | cin => exact writeOperand_keeps_inv hs ⟨hcfg, hregs, heng⟩
  | rptr => exact writeOperand_keeps_inv hs ⟨hcfg, ⟨ha, hb, hres, hv, haptr, hbptr, hn, hk, hidx, hret⟩, heng⟩
  | aptr => exact writeOperand_keeps_inv hs ⟨hcfg, ⟨ha, hb, hres, hrptr, hv, hbptr, hn, hk, hidx, hret⟩, heng⟩
  | bptr => exact writeOperand_keeps_inv hs ⟨hcfg, ⟨ha, hb, hres, hrptr, haptr, hv, hn, hk, hidx, hret⟩, heng⟩
  | n => exact writeOperand_keeps_inv hs ⟨hcfg, ⟨ha, hb, hres, hrptr, haptr, hbptr, hv, hk, hidx, hret⟩, heng⟩
  | k => exact writeOperand_keeps_inv hs ⟨hcfg, ⟨ha, hb, hres, hrptr, haptr, hbptr, hn, hv, hidx, hret⟩, heng⟩
  | idx => exact writeOperand_keeps_inv hs ⟨hcfg, ⟨ha, hb, hres, hrptr, haptr, hbptr, hn, hk, hv, hret⟩, heng⟩
  | cmd | res | cout | cfg | memsz | reserved => exact hs

/-- A write of a W-bit value to any slot, CMD included, keeps the invariant. -/
theorem hostRegWrite_keeps_inv {slot : Slot} {v : Limb} {s t : State} (hs : s.Inv)
    (hv : Limb.Fits s.cfg.width v) (h : hostRegWrite slot v s = .next t) : t.Inv := by
  by_cases hc : slot = .cmd
  · subst hc
    exact cmdWrite_keeps_inv hs h
  · exact finish_keeps_inv (writeSlot_keeps_inv hs hv) (hostRegWrite_slot v s hc ▸ h)

/-- A number below 2^32 is a W-bit number for both widths. -/
theorem ofNat_fits (w : Width) {x : Nat} (h : x < 2 ^ 32) : Limb.Fits w (BitVec.ofNat 64 x) := by
  have hw : 2 ^ 32 ≤ w.modulus := by cases w <;> decide
  have hx : x % 2 ^ 64 = x := Nat.mod_eq_of_lt (by omega)
  rw [Limb.Fits, BitVec.toNat_ofNat, hx]
  omega

theorem statusWord_fits (s : State) (w : Width) : Limb.Fits w (statusWord s) := by
  have hb := Bool.toNat_le s.eng.busy
  have ho := Bool.toNat_le s.ovr
  have he : s.err.code ≤ 4 := by cases s.err <;> decide
  exact ofNat_fits w (by omega)

theorem cfgWord_fits (cfg : Config) (w : Width) : Limb.Fits w (cfgWord cfg) := by
  have hw : cfg.width.bits ≤ 64 := by cases cfg.width <;> decide
  have hb : backendCode cfg.backend ≤ 2 := by cases cfg.backend <;> decide
  exact ofNat_fits w (by omega)

theorem zextBit_fits (b : Bool) (w : Width) : Limb.Fits w (zextBit b) :=
  ofNat_fits w (by have := Bool.toNat_le b; omega)

/-- Every slot reads as a W-bit number. -/
theorem readSlot_fits {s : State} (hs : s.Inv) (slot : Slot) : Limb.Fits s.cfg.width (readSlot s slot) := by
  obtain ⟨-, ⟨ha, hb, hres, hrptr, haptr, hbptr, hn, hk, hidx, -⟩, -⟩ := hs
  cases slot with
  | cmd | reserved => exact zero_fits _
  | status => exact statusWord_fits s _
  | a => exact ha
  | b => exact hb
  | cin => exact zextBit_fits s.cin _
  | res => exact hres
  | cout => exact zextBit_fits s.cout _
  | rptr => exact hrptr
  | aptr => exact haptr
  | bptr => exact hbptr
  | n => exact hn
  | k => exact hk
  | idx => exact hidx
  | cfg => exact cfgWord_fits s.cfg _
  | memsz => exact narrow_fits _ _

/-- A read that returns a W-bit value keeps the invariant. -/
theorem State.Inv.returning {s : State} {v : Limb} (hs : s.Inv) (hv : Limb.Fits s.cfg.width v) :
    State.Inv { s with returned := some v } := by
  obtain ⟨hcfg, ⟨ha, hb, hres, hrptr, haptr, hbptr, hn, hk, hidx, -⟩, heng⟩ := hs
  exact ⟨hcfg, ⟨ha, hb, hres, hrptr, haptr, hbptr, hn, hk, hidx, hv⟩, heng⟩

/-- A HOST memory read keeps the invariant. -/
theorem hostMemRead_keeps_inv {p : Limb} {s t : State} (hs : s.Inv) (h : hostMemRead p s = .next t) : t.Inv := by
  obtain ⟨v, rfl, hv⟩ := hostMemRead_inv h
  apply hs.returning
  rcases hv with ⟨-, rfl⟩ | ⟨-, hv⟩
  · exact zero_fits _
  · obtain ⟨-, -, -, -, -, hfit⟩ := hs
    exact hfit.read hv

/-- A HOST memory write of a W-bit value keeps the invariant. -/
theorem hostMemWrite_keeps_inv {p v : Limb} {s t : State} (hs : s.Inv) (hv : Limb.Fits s.cfg.width v)
    (h : hostMemWrite p v s = .next t) : t.Inv := by
  rcases hostMemWrite_inv h with ⟨-, rfl⟩ | ⟨hp, rfl⟩
  · exact hs
  · obtain ⟨hcfg, hregs, hg, hl, hwf, hfit⟩ := hs
    exact ⟨hcfg, hregs, hg, hl, Memory.wf_write _ _ hwf, hfit.write hp hv⟩

/-- Reset keeps the invariant: every register and latch is 0, and LM stays. -/
theorem resetBlock_keeps_inv {s : State} (hs : s.Inv) : (resetBlock s).Inv := by
  obtain ⟨hcfg, ⟨-, -, -, -, -, -, -, -, -, hret⟩, -, -, hwf, hfit⟩ := hs
  have z := zero_fits s.cfg.width
  exact ⟨hcfg, ⟨z, z, z, z, z, z, z, z, z, hret⟩, ⟨z, z, z, z, z, z, z, z⟩, rfl, hwf, hfit⟩

/-- Every transaction of the HOST, with its micro-steps, keeps the invariant. -/
theorem transact_keeps_inv {op : HostOp} {s t : State} (hs : s.Inv) (h : transact op s = .next t) : t.Inv := by
  cases op with
  | regWrite slot v => exact hostRegWrite_keeps_inv hs (narrow_fits _ _) h
  | regRead slot => exact finish_keeps_inv (hs.returning (readSlot_fits hs slot)) h
  | memWrite p v =>
    obtain ⟨u, hu, hf⟩ := andThen_eq_next.mp h
    exact finish_keeps_inv (hostMemWrite_keeps_inv hs (narrow_fits _ _) hu) hf
  | memRead p =>
    obtain ⟨u, hu, hf⟩ := andThen_eq_next.mp h
    exact finish_keeps_inv (hostMemRead_keeps_inv hs hu) hf
  | reset => exact finish_keeps_inv (resetBlock_keeps_inv hs) h

/-- Every step keeps the invariant: a micro-step, or a transaction with its micro-steps. -/
theorem step_keeps_inv {s t : State} (hs : s.Inv) (h : step s = .next t) : t.Inv := by
  unfold step at h
  split at h
  · exact microStep_keeps_inv hs h
  · rename_i turn rest _
    exact transact_keeps_inv (s := { s with inputs := rest, grant := turn.grant }) hs h

/-- Settles O48: each micro-step, each write to CMD and each transaction of the HOST keeps the
invariant. -/
theorem everyStepKeepsTheInvariant : Obligations.EveryStepKeepsTheInvariant :=
  fun _ _ => step_keeps_inv

end Sys2Proof.Machine

/-!
PROOFS. The ENGINE does not depend on what surrounds it, so no command depends on BACKEND (O28).
-/
namespace Sys2Proof.Machine

/-! ### What surrounds the ENGINE -/

/-- What a micro-step may touch of `s` (W, RES, COUT, LM, the trace and the ENGINE) with everything else
as in `u`: the operand registers, BACKEND, MEM_LIMBS, ERR, OVR and the HOST's side. -/
def State.surroundedBy (s u : State) : State :=
  { u with
    cfg := { u.cfg with width := s.cfg.width }
    res := s.res
    cout := s.cout
    lm := s.lm
    trace := s.trace
    eng := s.eng }

/-- `f` answers the same in the surroundings of every `u`, and leaves those surroundings alone. -/
def IgnoresSurroundings (f : State → Result) : Prop :=
  ∀ u s : State, f (s.surroundedBy u) = andThen (f s) fun t => .next (t.surroundedBy u)

/-- An ENGINE read ignores the surroundings when what goes on with the limb does. -/
theorem engineRead_surroundedBy {p : Nat} {f : Limb → State → Result} (u s : State)
    (hf : ∀ v t, f v (t.surroundedBy u) = andThen (f v t) fun t => .next (t.surroundedBy u)) :
    engineRead p (s.surroundedBy u) f = andThen (engineRead p s f) fun t => .next (t.surroundedBy u) := by
  cases h : s.lm.read p with
  | none => rw [engineRead_none f h, engineRead_none f (by exact h), andThen_fault]
  | some v => rw [engineRead_some f h, engineRead_some f (by exact h), ← hf v]; rfl

theorem addSubStep_ignoresSurroundings (prim : Width → Limb → Limb → Bool → Limb × Bool) :
    IgnoresSurroundings (addSubStep prim) := by
  intro u s
  by_cases hi : s.eng.i < s.eng.ln.toNat
  · rw [addSubStep, addSubStep, if_pos hi, if_pos (by exact hi)]
    refine engineRead_surroundedBy u s fun x s => engineRead_surroundedBy u s fun y s => ?_
    by_cases h : s.eng.i + 1 = s.eng.ln.toNat <;>
      simp [State.surroundedBy, engineWrite, complete, h]
  · rw [addSubStep, addSubStep, if_neg hi, if_neg (by exact hi)]
    rfl

theorem lcopyStep_ignoresSurroundings : IgnoresSurroundings lcopyStep := by
  intro u s
  by_cases hi : s.eng.i < s.eng.ln.toNat
  · rw [lcopyStep, lcopyStep, if_pos hi, if_pos (by exact hi)]
    refine engineRead_surroundedBy u s fun x s => ?_
    by_cases h : s.eng.i + 1 = s.eng.ln.toNat <;>
      simp [State.surroundedBy, copyZeroAdvance, engineWrite, complete, h]
  · rw [lcopyStep, lcopyStep, if_neg hi, if_neg (by exact hi)]
    rfl

theorem lselScanStep_ignoresSurroundings : IgnoresSurroundings lselScanStep := by
  intro u s
  refine engineRead_surroundedBy u s fun x s => engineRead_surroundedBy u s fun cur s => ?_
  by_cases h : s.eng.i + 1 = s.eng.ln.toNat <;> by_cases h' : s.eng.e + 1 = s.eng.lk.toNat <;>
    simp [State.surroundedBy, lselAdvance, engineWrite, complete, h, h']

theorem wordStep_surroundedBy (r : Limb × Bool) (u s : State) :
    wordStep r (s.surroundedBy u) = andThen (wordStep r s) fun t => .next (t.surroundedBy u) := rfl

theorem lzeroStep_ignoresSurroundings : IgnoresSurroundings lzeroStep := by
  intro u s
  by_cases hi : s.eng.i < s.eng.ln.toNat
  · rw [lzeroStep_eq hi, lzeroStep_eq (s := s.surroundedBy u) hi]
    rfl
  · rw [lzeroStep_done hi, lzeroStep_done (s := s.surroundedBy u) hi]
    rfl

theorem lselZeroStep_ignoresSurroundings : IgnoresSurroundings lselZeroStep := by
  intro u s
  rw [lselZeroStep_eq, lselZeroStep_eq]
  rfl

/-- A micro-step depends only on W, LM and the ENGINE, and changes nothing outside what
State.surroundedBy takes from `s`. -/
theorem microStep_ignoresSurroundings : IgnoresSurroundings microStep := by
  intro u s
  have hb : (s.surroundedBy u).eng.busy = s.eng.busy := rfl
  have ho : (s.surroundedBy u).eng.op = s.eng.op := rfl
  have hp : (s.surroundedBy u).eng.phase = s.eng.phase := rfl
  rw [microStep, microStep, hb, ho, hp]
  split
  · split
    · exact wordStep_surroundedBy _ u s
    · exact wordStep_surroundedBy _ u s
    · exact wordStep_surroundedBy _ u s
    · exact wordStep_surroundedBy _ u s
    · exact addSubStep_ignoresSurroundings adcW u s
    · exact addSubStep_ignoresSurroundings sbbW u s
    · exact lselZeroStep_ignoresSurroundings u s
    · exact lselScanStep_ignoresSurroundings u s
    · exact lcopyStep_ignoresSurroundings u s
    · exact lzeroStep_ignoresSurroundings u s
    · rfl
  · rfl

/-- A run of micro-steps ignores the surroundings too. -/
theorem runEngine_ignoresSurroundings (j : Nat) : IgnoresSurroundings (runEngine j) := by
  intro u s
  induction j generalizing s with
  | zero => rfl
  | succ j ih =>
    rw [runEngine_succ, runEngine_succ, microStep_ignoresSurroundings, andThen_assoc, andThen_assoc]
    congr 1
    funext t
    exact ih t

/-! ### BACKEND -/

/-- `s` built with BACKEND = `b` (00_scope.md R7). -/
def State.withBackend (b : Backend) (s : State) : State := { s with cfg := { s.cfg with backend := b } }

/-- A run of micro-steps is the same under every BACKEND. -/
theorem runEngine_withBackend (b : Backend) (j : Nat) (s : State) :
    runEngine j (s.withBackend b) = andThen (runEngine j s) fun t => .next (t.withBackend b) := by
  have hs : s.withBackend b = s.surroundedBy (s.withBackend b) := rfl
  rw [hs, runEngine_ignoresSurroundings]
  cases h : runEngine j s with
  | next t => rw [andThen_next, andThen_next, runEngine_frame h]; rfl
  | fault e => rfl
  | refused e => rfl

/-- The accept-time checks and the accepted state do not read BACKEND. -/
theorem issue_withBackend (b : Backend) (op : Instr) (first : Phase) (verdict : Err) (s : State) :
    issue op first verdict (s.withBackend b) = (issue op first verdict s).withBackend b := by
  cases hb : s.eng.busy with
  | true => rw [issue_busy _ _ _ hb, issue_busy _ _ _ (by exact hb)]; rfl
  | false =>
    by_cases hv : verdict = .none
    · rw [hv, issue_accept _ _ hb, issue_accept _ _ (by exact hb)]; rfl
    · rw [issue_reject _ _ hb hv, issue_reject _ _ (by exact hb) hv]; rfl

/-- The verdict on a command word does not read BACKEND. -/
theorem acceptCode_withBackend (b : Backend) (i : Instr) (s : State) :
    acceptCode i (s.withBackend b) = acceptCode i s := by cases i <;> rfl

/-- Settles O28: the verdict does not read BACKEND, and no micro-step does. -/
theorem backendChangesNoResult : Obligations.BackendChangesNoResult := by
  intro i s b
  change exec i (s.withBackend b) = andThen (exec i s) fun t => .next (t.withBackend b)
  rw [exec_eq, exec_eq, acceptCode_withBackend, issue_withBackend]
  exact runEngine_withBackend b _ _

end Sys2Proof.Machine

/-!
PROOFS. The register port and the frame of a step (10_state.md): with no turn left a step is the ENGINE's
(O5), what slots read as (O7, O10), what a slot write does (O11, O12), and who writes ERR (O21), the
operand registers and the build (O51) and the results (O52).
-/
namespace Sys2Proof.Machine

/-! ### A step with no turn of the HOST -/

/-- Settles O5: with no turn left a step is the ENGINE's micro-step, and an idle ENGINE has none. -/
theorem stepWithNoTurnIsTheEngines : Obligations.StepWithNoTurnIsTheEngines :=
  fun _ h => ⟨fun _ => step_nil h, fun hb => (step_nil h).trans (microStep_idle hb)⟩

/-! ### What a slot reads as -/

theorem statusWord_toNat (s : State) :
    (statusWord s).toNat = s.eng.busy.toNat + 2 ^ 4 * s.err.code + 2 ^ 8 * s.ovr.toNat := by
  have hb := Bool.toNat_le s.eng.busy
  have ho := Bool.toNat_le s.ovr
  have he : s.err.code ≤ 4 := by cases s.err <;> decide
  rw [statusWord, BitVec.toNat_ofNat]
  omega

theorem cfgWord_toNat (cfg : Config) :
    (cfgWord cfg).toNat = cfg.width.bits + 2 ^ 8 * backendCode cfg.backend := by
  have hw : cfg.width.bits ≤ 64 := by cases cfg.width <;> decide
  have hb : backendCode cfg.backend ≤ 2 := by cases cfg.backend <;> decide
  rw [cfgWord, BitVec.toNat_ofNat]
  omega

/-- MEMSZ reads as MEM_LIMBS, which a build in range keeps below 2^W (10_state.md R32). -/
theorem narrow_memLimbs_toNat {cfg : Config} (h : cfg.Wf) : (narrow cfg.width cfg.memLimbs).toNat = cfg.memLimbs := by
  obtain ⟨-, hle⟩ := h
  have := modulus_pos cfg.width
  rw [narrow_toNat, Nat.mod_eq_of_lt (by omega)]

/-- A bit as a number, in the spelling of the statements. -/
theorem boolToNat_eq_ite (b : Bool) : b.toNat = if b then 1 else 0 := by cases b <;> rfl

/-- A HOST read with no micro-step after it returns the slot's value and changes nothing else. -/
theorem step_regRead (s : State) (slot : Slot) :
    step (s.withTurn (.regRead slot) 0) = .next { s with grant := 0, returned := some (readSlot s slot) } := by
  rw [step_withTurn, transact_regRead, readSlot_grant, finish_zero rfl]

/-- Settles O7: the registers of State.powerUp are 0, and CFG and MEMSZ are the build's. -/
theorem powerUpValues : Obligations.PowerUpValues := by
  refine ⟨fun cfg hcfg => ⟨fun slot => ?_, rfl, rfl, rfl, fun _ => rfl⟩, rfl⟩
  cases slot with
  | cfg => exact cfgWord_toNat cfg
  | memsz => exact narrow_memLimbs_toNat hcfg
  | status => exact statusWord_toNat (State.powerUp cfg)
  | _ => rfl

/-- Settles O10: a slot reads as its field, with STATUS and CFG put together from their parts. -/
theorem registerReads : Obligations.RegisterReads := by
  intro s
  have hstatus : (readSlot s .status).toNat = (if s.eng.busy then 1 else 0) + 2 ^ 4 * s.err.code +
      2 ^ 8 * (if s.ovr then 1 else 0) := by
    rw [← boolToNat_eq_ite, ← boolToNat_eq_ite]
    exact statusWord_toNat s
  have hbit (b : Bool) : (zextBit b).toNat = if b then 1 else 0 := (zextBit_toNat b).trans (boolToNat_eq_ite b)
  exact ⟨step_regRead s, rfl, rfl, hstatus, rfl, rfl, hbit s.cin, rfl, hbit s.cout, rfl, rfl, rfl, rfl, rfl, rfl,
    cfgWord_toNat s.cfg, narrow_memLimbs_toNat⟩

/-! ### What a slot write does -/

theorem writeOperand_idle {s : State} (stored : State) (h : s.eng.busy = false) : writeOperand stored s = stored := by
  simp [writeOperand, h]

theorem writeOperand_busy {s : State} (stored : State) (h : s.eng.busy = true) :
    writeOperand stored s = overrun s := by simp [writeOperand, h]

@[simp] theorem writeSlot_grant (slot : Slot) (v : Limb) (s : State) : (writeSlot slot v s).grant = s.grant :=
  (congrArg State.grant (writeSlot_frame slot v s) :)

/-- A write to a slot other than CMD with no micro-step after it: the port takes the low W bits. -/
theorem step_regWrite_slot (s : State) (v : Limb) {slot : Slot} (h : slot ≠ .cmd) :
    step (s.withTurn (.regWrite slot v) 0) =
      .next (writeSlot slot (narrow s.cfg.width v.toNat) { s with grant := 0 }) := by
  rw [step_withTurn, transact_regWrite, hostRegWrite_slot _ _ h, finish_zero (writeSlot_grant _ _ _)]

/-- A W-bit value written to a slot other than CMD arrives whole. -/
theorem step_regWrite_fits {s : State} {v : Limb} {slot : Slot} (hv : Limb.Fits s.cfg.width v) (h : slot ≠ .cmd) :
    step (s.withTurn (.regWrite slot v) 0) = .next (writeSlot slot v { s with grant := 0 }) := by
  rw [step_regWrite_slot s v h, narrow_of_fits hv]

/-- Bit 0 of a limb is its parity (10_state.md R27). -/
theorem getLsbD_zero_eq_odd (v : Limb) : v.getLsbD 0 = decide (v.toNat % 2 = 1) := by
  rw [BitVec.getLsbD, Nat.testBit_zero]

/-- Settles O11: on an idle block the port stores the W-bit value whole. -/
theorem idleRegisterWritesStore : Obligations.IdleRegisterWritesStore := by
  intro s v hidle hv
  have store (slot : Slot) (hs : slot ≠ .cmd) {stored : State}
      (hw : writeSlot slot v { s with grant := 0 } = writeOperand stored { s with grant := 0 }) :
      step (s.withTurn (.regWrite slot v) 0) = .next stored := by
    rw [step_regWrite_fits hv hs, hw, writeOperand_idle (s := { s with grant := 0 }) _ hidle]
  refine ⟨store .a nofun rfl, store .b nofun rfl, ?_, store .rptr nofun rfl, store .aptr nofun rfl,
    store .bptr nofun rfl, store .n nofun rfl, store .k nofun rfl, store .idx nofun rfl, step_regRead s⟩
  rw [← getLsbD_zero_eq_odd]
  exact store .cin nofun rfl

/-- A write to STATUS keeps OVR exactly when bit 8 is 0 (10_state.md R24). -/
theorem writeStatus_eq (v : Limb) (s : State) :
    writeStatus v s = { s with ovr := s.ovr && decide (v.toNat / 2 ^ 8 % 2 = 0) } := by
  have hbit : v.getLsbD 8 = decide (v.toNat / 2 ^ 8 % 2 = 1) := Nat.testBit_eq_decide_div_mod_eq
  rw [writeStatus, hbit]
  rcases Nat.mod_two_eq_zero_or_one (v.toNat / 2 ^ 8) with h | h <;> rw [h] <;> simp

/-- A write to an operand register of a busy block only sets OVR (10_state.md R40). -/
theorem writeSlot_busy {s : State} {slot : Slot} (v : Limb) (hb : s.eng.busy = true)
    (h : slot ∈ [.a, .b, .cin, .rptr, .aptr, .bptr, .n, .k, .idx]) : writeSlot slot v s = overrun s := by
  cases slot with
  | a | b | cin | rptr | aptr | bptr | n | k | idx => exact writeOperand_busy _ hb
  | cmd | status | res | cout | cfg | memsz | reserved => exact absurd h (by decide)

/-- A write to a slot that no write reaches changes nothing (10_state.md R40). -/
theorem writeSlot_readOnly {slot : Slot} (v : Limb) (s : State)
    (h : slot ∈ [.res, .cout, .cfg, .memsz, .reserved]) : writeSlot slot v s = s := by
  cases slot with
  | res | cout | cfg | memsz | reserved => rfl
  | cmd | status | a | b | cin | rptr | aptr | bptr | n | k | idx => exact absurd h (by decide)

theorem issueIllegal_busy {s : State} (h : s.eng.busy = true) : issueIllegal s = overrun s := by
  simp [issueIllegal, h]

/-- Any word written to CMD while busy is ignored with OVR, and the ENGINE goes on. -/
theorem cmdWrite_busy {s : State} (v : Limb) (h : s.eng.busy = true) : cmdWrite v s = finish (overrun s) := by
  cases hd : decode v with
  | ok i => rw [cmdWrite_ok s hd, exec_busy h]; rfl
  | error e => rw [cmdWrite_error s hd, issueIllegal_busy h]

/-- Settles O12: while busy CMD and the operand registers only set OVR; STATUS and the read-only slots do
not look at BUSY. -/
theorem busyRegisterWritesOnlySetOverrun : Obligations.BusyRegisterWritesOnlySetOverrun := by
  refine ⟨fun s v slot hb h => ?_, fun s v hv => ?_, fun s v slot h => ?_⟩
  · rcases List.mem_cons.mp h with rfl | h
    · rw [step_withTurn, transact_regWrite, hostRegWrite_cmd, cmdWrite_busy _ (by exact hb), finish_zero rfl]
      rfl
    · rw [step_regWrite_slot s v (by rintro rfl; exact absurd h (by decide)), writeSlot_busy _ (by exact hb) h]
      rfl
  · rw [step_regWrite_fits (slot := .status) hv nofun]
    exact congrArg Host.Outcome.next (writeStatus_eq v _)
  · rw [step_regWrite_slot s v (by rintro rfl; exact absurd h (by decide)), writeSlot_readOnly _ _ h]

/-! ### What a transaction does before its micro-steps -/

/-- Issuing a command changes ERR, OVR and the ENGINE only. -/
theorem issue_frame (op : Instr) (first : Phase) (verdict : Err) (s : State) :
    issue op first verdict s = { s with
      err := (issue op first verdict s).err
      ovr := (issue op first verdict s).ovr
      eng := (issue op first verdict s).eng } := by
  cases hb : s.eng.busy with
  | true => rw [issue_busy _ _ _ hb]; rfl
  | false =>
    by_cases hv : verdict = .none
    · rw [hv, issue_accept _ _ hb]; rfl
    · rw [issue_reject _ _ hb hv]; rfl

theorem issueIllegal_frame (s : State) :
    issueIllegal s = { s with err := (issueIllegal s).err, ovr := (issueIllegal s).ovr } := by
  unfold issueIllegal
  split <;> rfl

/-- A write to CMD is an update of ERR, OVR and the ENGINE, which leaves ERR while busy, and then the
turn's micro-steps. -/
theorem cmdWrite_eq_finish (v : Limb) (s : State) : ∃ u, cmdWrite v s = finish u ∧
    u = { s with err := u.err, ovr := u.ovr, eng := u.eng } ∧ (s.eng.busy = true → u.err = s.err) := by
  cases hb : s.eng.busy with
  | true => exact ⟨_, cmdWrite_busy v hb, rfl, fun _ => rfl⟩
  | false =>
    cases hd : decode v with
    | ok i => exact ⟨_, (cmdWrite_ok s hd).trans (exec_eq i s), issue_frame _ _ _ s, nofun⟩
    | error e => exact ⟨_, cmdWrite_error s hd, by rw [issueIllegal_frame], nofun⟩

/-- A transaction that answers is, before the micro-steps of its turn, the Reset of the block, or an update
that leaves the build, the results, the trace and the schedule, and ERR unless it is a write to CMD of an
idle block. -/
theorem transact_inv {op : HostOp} {s t : State} (h : transact op s = .next t) : ∃ u, finish u = .next t ∧
    ((op = .reset ∧ u = resetBlock s) ∨
      (u = { u with
          cfg := s.cfg, res := s.res, cout := s.cout, trace := s.trace, inputs := s.inputs, grant := s.grant } ∧
        (u.err = s.err ∨ s.eng.busy = false ∧ ∃ v, op = .regWrite .cmd v))) := by
  cases op with
  | regWrite slot v =>
    rw [transact_regWrite] at h
    by_cases hc : slot = .cmd
    · subst hc
      obtain ⟨u, hu, hframe, herr⟩ := cmdWrite_eq_finish (narrow s.cfg.width v.toNat) s
      refine ⟨u, hu.symm.trans h, .inr ⟨by rw [hframe], ?_⟩⟩
      cases hb : s.eng.busy with
      | true => exact .inl (herr hb)
      | false => exact .inr ⟨rfl, v, rfl⟩
    · have hframe := writeSlot_frame slot (narrow s.cfg.width v.toNat) s
      have herr := congrArg State.err hframe
      exact ⟨_, (hostRegWrite_slot _ s hc).symm.trans h, .inr ⟨by rw [hframe], .inl herr⟩⟩
  | regRead slot => exact ⟨_, h, .inr ⟨rfl, .inl rfl⟩⟩
  | memWrite p v =>
    obtain ⟨u, hu, hf⟩ := andThen_eq_next.mp h
    rcases hostMemWrite_inv hu with ⟨-, rfl⟩ | ⟨-, rfl⟩ <;> exact ⟨_, hf, .inr ⟨rfl, .inl rfl⟩⟩
  | memRead p =>
    obtain ⟨u, hu, hf⟩ := andThen_eq_next.mp h
    obtain ⟨v, rfl, -⟩ := hostMemRead_inv hu
    exact ⟨_, hf, .inr ⟨rfl, .inl rfl⟩⟩
  | reset => exact ⟨_, h, .inl ⟨rfl, rfl⟩⟩

/-! ### Who writes what -/

/-- A legal command word changes RES, COUT, LM, the trace, the ENGINE, ERR and OVR only. -/
theorem exec_frame {i : Instr} {s t : State} (h : exec i s = .next t) :
    t = { s with
      res := t.res, cout := t.cout, lm := t.lm, trace := t.trace, eng := t.eng, err := t.err, ovr := t.ovr } := by
  rw [exec_eq] at h
  rw [runEngine_frame h, issue_frame]

/-- The turn's micro-steps leave ERR. -/
theorem finish_err {s t : State} (h : finish s = .next t) : t.err = s.err := (congrArg State.err (runEngine_frame h) :)

/-- The turn's micro-steps leave the build. -/
theorem finish_cfg {s t : State} (h : finish s = .next t) : t.cfg = s.cfg := (congrArg State.cfg (runEngine_frame h) :)

/-- No transaction changes the build's parameters (00_scope.md R6, R7). -/
theorem transact_cfg {op : HostOp} {s t : State} (h : transact op s = .next t) : t.cfg = s.cfg := by
  obtain ⟨u, hf, hu⟩ := transact_inv h
  rw [finish_cfg hf]
  rcases hu with ⟨-, rfl⟩ | ⟨hframe, -⟩
  · rfl
  · exact (congrArg State.cfg hframe :)

/-- No step changes the build's parameters. -/
theorem step_cfg {s t : State} (h : step s = .next t) : t.cfg = s.cfg := by
  unfold step at h
  split at h
  · exact (congrArg State.cfg (microStep_frame h) :)
  · exact (transact_cfg h :)

/-- Settles O21: ERR is left by a transaction's own update, by transact_inv, and by its micro-steps. -/
theorem errKeepsTheLastVerdict : Obligations.ErrKeepsTheLastVerdict := by
  refine ⟨fun s t op g h hreset hcmd => ?_, fun s t h => (congrArg State.err (microStep_frame h) :)⟩
  obtain ⟨u, hf, ⟨hr, -⟩ | ⟨-, herr | ⟨hidle, v, hv⟩⟩⟩ := transact_inv h
  · exact absurd hr hreset
  · exact (finish_err hf).trans herr
  · exact absurd hv (hcmd hidle v)

/-- Settles O51: the operand registers and the build lie outside the frame of exec, the build outside
every step's. -/
theorem commandsLeaveOperandRegisters : Obligations.CommandsLeaveOperandRegisters := by
  refine ⟨fun i s t h => ?_, fun s t => step_cfg⟩
  rw [exec_frame h]
  exact ⟨rfl, rfl, rfl, rfl, rfl, rfl, rfl, rfl, rfl, rfl⟩

/-- Settles O52: with no micro-step granted a transaction is its own update, which leaves the results. -/
theorem onlyTheEngineWritesResults : Obligations.OnlyTheEngineWritesResults := by
  intro s t op hreset h
  obtain ⟨u, hf, ⟨hr, -⟩ | ⟨hframe, -⟩⟩ := transact_inv h
  · exact absurd hr hreset
  · have hgrant : u.grant = 0 := congrArg State.grant hframe
    obtain rfl : u = t := by simpa [finish_zero hgrant] using hf
    exact ⟨(congrArg State.res hframe :), (congrArg State.cout hframe :)⟩

end Sys2Proof.Machine

/-!
PROOFS. LM and who may touch it (20_memory.md): the HOST's memory port in and beyond LM (O13, O14, O16), the
footprint of each command (O15), and the ENGINE's accesses, which stay in it (O54) and fault on an unwritten
limb (O16).
-/
namespace Sys2Proof.Machine

/-! ### The footprint of the latched command -/

/-- `p` lies in [base, base + len) (00_scope.md R12). -/
@[simp] theorem inArray_iff (base len p : Nat) : inArray base len p = true ↔ base ≤ p ∧ p < base + len := by
  simp [inArray]

theorem Engine.footprint_word {g : Engine} {op : Instr} (ho : g.op = some op) (ha : isArrayCommand op = false)
    (p : Nat) : g.footprint p = false := by
  cases op with
  | adc | sbb | add | sub => simp [Engine.footprint, ho]
  | ladd | lsub | lsel | lcopy | lzero => exact absurd ha (by decide)

theorem Engine.footprint_addSub {g : Engine} (ho : g.op = some .ladd ∨ g.op = some .lsub) (p : Nat) :
    g.footprint p = true ↔
      (g.lr.toNat ≤ p ∧ p < g.lr.toNat + g.ln.toNat) ∨ (g.la.toNat ≤ p ∧ p < g.la.toNat + g.ln.toNat) ∨
        (g.lb.toNat ≤ p ∧ p < g.lb.toNat + g.ln.toNat) := by
  rcases ho with ho | ho <;> simp [Engine.footprint, ho, or_assoc]

theorem Engine.footprint_lsel {g : Engine} (ho : g.op = some .lsel) (p : Nat) :
    g.footprint p = true ↔
      (g.lr.toNat ≤ p ∧ p < g.lr.toNat + g.ln.toNat) ∨
        (g.la.toNat ≤ p ∧ p < g.la.toNat + g.ln.toNat * g.lk.toNat) := by
  simp [Engine.footprint, ho]

theorem Engine.footprint_lcopy {g : Engine} (ho : g.op = some .lcopy) (p : Nat) :
    g.footprint p = true ↔
      (g.lr.toNat ≤ p ∧ p < g.lr.toNat + g.ln.toNat) ∨ (g.la.toNat ≤ p ∧ p < g.la.toNat + g.ln.toNat) := by
  simp [Engine.footprint, ho]

theorem Engine.footprint_lzero {g : Engine} (ho : g.op = some .lzero) (p : Nat) :
    g.footprint p = true ↔ g.lr.toNat ≤ p ∧ p < g.lr.toNat + g.ln.toNat := by
  simp [Engine.footprint, ho]

/-- Settles O15: accept latches the operand registers that each command's footprint is made of. -/
theorem footprintOfEachCommand : Obligations.FootprintOfEachCommand := by
  intro i s p
  cases i with
  | adc | sbb | add | sub => exact iff_of_false (by rw [Engine.footprint_word rfl rfl]; decide) id
  | ladd => exact Engine.footprint_addSub (.inl rfl) p
  | lsub => exact Engine.footprint_addSub (.inr rfl) p
  | lsel => exact Engine.footprint_lsel rfl p
  | lcopy => exact Engine.footprint_lcopy rfl p
  | lzero => exact Engine.footprint_lzero rfl p

/-! ### The HOST's memory port -/

theorem hostMemRead_beyond {s : State} {p : Limb} (h : s.cfg.memLimbs ≤ p.toNat) :
    hostMemRead p s = .next { s with returned := some 0#64 } := if_pos h

theorem hostMemWrite_beyond {s : State} {p : Limb} (v : Limb) (h : s.cfg.memLimbs ≤ p.toNat) :
    hostMemWrite p v s = .next s := if_pos h

section
variable {s : State} {p : Limb} (hp : p.toNat < s.cfg.memLimbs)
include hp

theorem hostMemRead_race (h : (s.eng.busy && s.eng.footprint p.toNat) = true) :
    hostMemRead p s = .fault .hostRace := by
  rw [hostMemRead, if_neg (Nat.not_le.mpr hp), if_pos h]

theorem hostMemWrite_race (v : Limb) (h : (s.eng.busy && s.eng.footprint p.toNat) = true) :
    hostMemWrite p v s = .fault .hostRace := by
  rw [hostMemWrite, if_neg (Nat.not_le.mpr hp), if_pos h]

theorem hostMemRead_written {x : Limb} (h : (s.eng.busy && s.eng.footprint p.toNat) = false)
    (hx : s.lm.read p.toNat = some x) : hostMemRead p s = .next { s with returned := some x } := by
  simp [hostMemRead, Nat.not_le.mpr hp, h, hx]

theorem hostMemRead_unwritten (h : (s.eng.busy && s.eng.footprint p.toNat) = false)
    (hx : s.lm.read p.toNat = none) : hostMemRead p s = .fault .uninitRead := by
  simp [hostMemRead, Nat.not_le.mpr hp, h, hx]

theorem hostMemWrite_free (v : Limb) (h : (s.eng.busy && s.eng.footprint p.toNat) = false) :
    hostMemWrite p v s = .next { s with lm := s.lm.write p.toNat v } := by
  simp [hostMemWrite, Nat.not_le.mpr hp, h]

end

/-- A HOST read of a W-bit limb address takes the address as it is. -/
theorem step_memRead {s : State} {p : Limb} (hp : Limb.Fits s.cfg.width p) (g : Nat) :
    step (s.withTurn (.memRead p) g) = andThen (hostMemRead p { s with grant := g }) finish := by
  rw [step_withTurn, transact_memRead, narrow_of_fits hp]

/-- A HOST write of a W-bit value to a W-bit limb address takes both as they are. -/
theorem step_memWrite {s : State} {p v : Limb} (hp : Limb.Fits s.cfg.width p) (hv : Limb.Fits s.cfg.width v)
    (g : Nat) : step (s.withTurn (.memWrite p v) g) = andThen (hostMemWrite p v { s with grant := g }) finish := by
  rw [step_withTurn, transact_memWrite, narrow_of_fits hp, narrow_of_fits hv]

/-- Settles O13: the port's free and beyond-LM cases, with no micro-step after them. -/
theorem hostMemoryAccess : Obligations.HostMemoryAccess := by
  intro s p v hp hv
  rw [step_memWrite hp hv, step_memRead hp]
  refine ⟨fun hin hfree => ⟨?_, fun x hx => ?_⟩, fun hout => ⟨?_, ?_⟩⟩
  · rw [hostMemWrite_free (s := { s with grant := 0 }) hin v hfree]
    exact ⟨_, rfl, rfl, Memory.read_write_same _ _ _, fun q hq => Memory.read_write_other _ v hq⟩
  · rw [hostMemRead_written (s := { s with grant := 0 }) hin hfree hx]
    rfl
  · rw [hostMemWrite_beyond (s := { s with grant := 0 }) v hout]
    rfl
  · rw [hostMemRead_beyond (s := { s with grant := 0 }) hout]
    rfl

/-- Settles O14: the race is found before any micro-step the turn grants, whatever value is written. -/
theorem hostAccessInFootprintIsARace : Obligations.HostAccessInFootprintIsARace := by
  intro s p v g hp hin hb hfoot
  have hrace : (s.eng.busy && s.eng.footprint p.toNat) = true := by rw [hb, hfoot]; rfl
  constructor
  · rw [step_withTurn, transact_memWrite, narrow_of_fits hp,
      hostMemWrite_race (s := { s with grant := g }) hin _ hrace, andThen_fault]
  · rw [step_memRead hp, hostMemRead_race (s := { s with grant := g }) hin hrace, andThen_fault]

/-! ### The ENGINE's reads of unwritten limbs -/

/-- LADD and LSUB fault when either source limb holds no value. -/
theorem addSubStep_unwritten {prim : Width → Limb → Limb → Bool → Limb × Bool} {s : State}
    (hi : s.eng.i < s.eng.ln.toNat)
    (h : s.lm.read (s.eng.la.toNat + s.eng.i) = none ∨ s.lm.read (s.eng.lb.toNat + s.eng.i) = none) :
    addSubStep prim s = .fault .uninitRead := by
  rw [addSubStep, if_pos hi]
  cases hx : s.lm.read (s.eng.la.toNat + s.eng.i) with
  | none => exact engineRead_none _ hx
  | some x =>
    have hy : s.lm.read (s.eng.lb.toNat + s.eng.i) = none := h.resolve_left (by simp [hx])
    rw [engineRead_some _ hx]
    exact engineRead_none _ hy

/-- LSEL's SCAN faults when the table limb or the destination limb holds no value. -/
theorem lselScanStep_unwritten {s : State}
    (h : s.lm.read (s.eng.la.toNat + s.eng.e * s.eng.ln.toNat + s.eng.i) = none ∨
      s.lm.read (s.eng.lr.toNat + s.eng.i) = none) : lselScanStep s = .fault .uninitRead := by
  rw [lselScanStep]
  cases hx : s.lm.read (s.eng.la.toNat + s.eng.e * s.eng.ln.toNat + s.eng.i) with
  | none => exact engineRead_none _ hx
  | some x =>
    have hc : s.lm.read (s.eng.lr.toNat + s.eng.i) = none := h.resolve_left (by simp [hx])
    rw [engineRead_some _ hx]
    exact engineRead_none _ hc

/-- LCOPY faults when its source limb holds no value. -/
theorem lcopyStep_unwritten {s : State} (hi : s.eng.i < s.eng.ln.toNat)
    (h : s.lm.read (s.eng.la.toNat + s.eng.i) = none) : lcopyStep s = .fault .uninitRead := by
  rw [lcopyStep, if_pos hi]
  exact engineRead_none _ h

/-- Settles O16: the HOST's read outside a running footprint, then the micro-steps that read. -/
theorem unwrittenReadIsAFault : Obligations.UnwrittenReadIsAFault := by
  refine ⟨fun s p g hp hin hfree hx => ?_, fun s hb hp hi ho h => ?_, fun s hb hp ho h => ?_,
    fun s hb hp hi ho h => ?_⟩
  · rw [step_memRead hp, hostMemRead_unwritten (s := { s with grant := g }) hin hfree hx, andThen_fault]
  · rcases ho with ho | ho
    · exact (microStep_ladd hb ho hp).trans (addSubStep_unwritten hi h)
    · exact (microStep_lsub hb ho hp).trans (addSubStep_unwritten hi h)
  · exact (microStep_lsel_scan hb ho hp).trans (lselScanStep_unwritten h)
  · exact (microStep_lcopy hb ho hp).trans (lcopyStep_unwritten hi h)

/-! ### The ENGINE stays in its footprint -/

/-- LADD and LSUB legal in phase RUN. -/
theorem Engine.legal_addSub {memLimbs : Nat} {g : Engine} (hb : g.busy = true)
    (ho : g.op = some .ladd ∨ g.op = some .lsub) (hp : g.phase = .run) : g.legal memLimbs = true ↔
      g.i < g.ln.toNat ∧ g.lr.toNat + g.ln.toNat ≤ memLimbs ∧ g.la.toNat + g.ln.toNat ≤ memLimbs ∧
        g.lb.toNat + g.ln.toNat ≤ memLimbs := by
  rcases ho with ho | ho <;> simp [Engine.legal, hb, ho, hp]

/-- LCOPY legal in phase RUN. -/
theorem Engine.legal_lcopy {memLimbs : Nat} {g : Engine} (hb : g.busy = true) (ho : g.op = some .lcopy)
    (hp : g.phase = .run) : g.legal memLimbs = true ↔
      g.i < g.ln.toNat ∧ g.lr.toNat + g.ln.toNat ≤ memLimbs ∧ g.la.toNat + g.ln.toNat ≤ memLimbs := by
  simp [Engine.legal, hb, ho, hp]

/-- The limb at `p` is in the footprint of the latched command and in LM (20_memory.md R50, R57). -/
def State.MayAccess (s : State) (p : Nat) : Prop := s.eng.footprint p = true ∧ p < s.cfg.memLimbs

/-- What `t`'s trace adds to that of `s` are accesses that the command latched in `s` may make. -/
def State.AddsOwnAccesses (s t : State) : Prop :=
  ∃ evs : List Access, t.trace = s.trace ++ evs ∧ ∀ ev ∈ evs, s.MayAccess ev.addr

/-- A step that leaves the trace adds no access. -/
theorem State.AddsOwnAccesses.of_trace_eq {s t : State} (h : t.trace = s.trace) : s.AddsOwnAccesses t :=
  ⟨[], by simp [h], by simp⟩

/-- The footprint of an array command holds its destination. -/
theorem Engine.footprint_destination {g : Engine} {op : Instr} (ho : g.op = some op)
    (ha : isArrayCommand op = true) {p : Nat} (hp : g.lr.toNat ≤ p ∧ p < g.lr.toNat + g.ln.toNat) :
    g.footprint p = true := by
  cases op with
  | adc | sbb | add | sub => exact absurd ha (by decide)
  | ladd => exact (Engine.footprint_addSub (.inl ho) p).mpr (.inl hp)
  | lsub => exact (Engine.footprint_addSub (.inr ho) p).mpr (.inl hp)
  | lsel => exact (Engine.footprint_lsel ho p).mpr (.inl hp)
  | lcopy => exact (Engine.footprint_lcopy ho p).mpr (.inl hp)
  | lzero => exact (Engine.footprint_lzero ho p).mpr hp

/-- A running array command may access the destination limb of its position. -/
theorem State.mayAccess_destination {s : State} {op : Instr} (hl : s.eng.legal s.cfg.memLimbs = true)
    (hb : s.eng.busy = true) (ho : s.eng.op = some op) (ha : isArrayCommand op = true) :
    s.MayAccess (s.eng.lr.toNat + s.eng.i) := by
  obtain ⟨hi, hle⟩ := Engine.legal_destination hl hb ho ha
  exact ⟨Engine.footprint_destination ho ha (by omega), by omega⟩

/-- Limb i of entry e of a table of k entries of n limbs lies in the table. -/
theorem entry_limb_lt_table {n k e i : Nat} (he : e < k) (hi : i < n) : e * n + i < n * k :=
  calc e * n + i < e * n + n := by omega
    _ = n * (e + 1) := by ring
    _ ≤ n * k := Nat.mul_le_mul_left n he

/-- LADD and LSUB read limb i of both sources and write limb i of the destination. -/
theorem addSubStep_addsOwnAccesses {prim : Width → Limb → Limb → Bool → Limb × Bool} {s t : State}
    (hl : s.eng.legal s.cfg.memLimbs = true) (hb : s.eng.busy = true)
    (ho : s.eng.op = some .ladd ∨ s.eng.op = some .lsub) (hp : s.eng.phase = .run)
    (h : addSubStep prim s = .next t) : s.AddsOwnAccesses t := by
  obtain ⟨-, hr, ha, hb'⟩ := (Engine.legal_addSub hb ho hp).mp hl
  rcases addSubStep_inv h with ⟨-, rfl⟩ | ⟨hi, x, y, hx, hy⟩
  · exact .of_trace_eq rfl
  · obtain rfl := Host.Outcome.next.inj ((addSubStep_eq hi hx hy).symm.trans h)
    refine ⟨_, rfl, ?_⟩
    simp only [List.forall_mem_cons, Access.addr, State.MayAccess, Engine.footprint_addSub ho]
    refine ⟨?_, ?_, ?_, by simp⟩ <;> omega

/-- LCOPY reads limb i of its source and writes limb i of its destination. -/
theorem lcopyStep_addsOwnAccesses {s t : State} (hl : s.eng.legal s.cfg.memLimbs = true)
    (hb : s.eng.busy = true) (ho : s.eng.op = some .lcopy) (hp : s.eng.phase = .run)
    (h : lcopyStep s = .next t) : s.AddsOwnAccesses t := by
  obtain ⟨-, hr, ha⟩ := (Engine.legal_lcopy hb ho hp).mp hl
  rcases lcopyStep_inv h with ⟨-, rfl⟩ | ⟨hi, x, hx⟩
  · exact .of_trace_eq rfl
  · obtain rfl := Host.Outcome.next.inj ((lcopyStep_eq hi hx).symm.trans h)
    refine ⟨_, rfl, ?_⟩
    simp only [List.forall_mem_cons, Access.addr, State.MayAccess, Engine.footprint_lcopy ho]
    refine ⟨?_, ?_, by simp⟩ <;> omega

/-- LZERO writes limb i of its destination. -/
theorem lzeroStep_addsOwnAccesses {s t : State} (hl : s.eng.legal s.cfg.memLimbs = true)
    (hb : s.eng.busy = true) (ho : s.eng.op = some .lzero) (h : lzeroStep s = .next t) :
    s.AddsOwnAccesses t := by
  obtain ⟨hi, -⟩ := Engine.legal_destination hl hb ho rfl
  obtain rfl := Host.Outcome.next.inj ((lzeroStep_eq hi).symm.trans h)
  exact ⟨_, rfl, List.forall_mem_singleton.mpr (State.mayAccess_destination hl hb ho rfl)⟩

/-- LSEL's ZERO writes limb i of its destination. -/
theorem lselZeroStep_addsOwnAccesses {s t : State} (hl : s.eng.legal s.cfg.memLimbs = true)
    (hb : s.eng.busy = true) (ho : s.eng.op = some .lsel) (h : lselZeroStep s = .next t) :
    s.AddsOwnAccesses t := by
  obtain rfl := Host.Outcome.next.inj ((lselZeroStep_eq s).symm.trans h)
  exact ⟨_, rfl, List.forall_mem_singleton.mpr (State.mayAccess_destination hl hb ho rfl)⟩

/-- LSEL's SCAN reads limb i of entry e of its table, and reads and writes limb i of its destination. -/
theorem lselScanStep_addsOwnAccesses {s t : State} (hl : s.eng.legal s.cfg.memLimbs = true)
    (hb : s.eng.busy = true) (ho : s.eng.op = some .lsel) (hp : s.eng.phase = .scan)
    (h : lselScanStep s = .next t) : s.AddsOwnAccesses t := by
  obtain ⟨hi, he, hr, ht, -⟩ := (Engine.legal_lsel_scan hb ho hp).mp hl
  have htable := entry_limb_lt_table he hi
  have hdst := State.mayAccess_destination hl hb ho rfl
  have hsrc : s.MayAccess (s.eng.la.toNat + s.eng.e * s.eng.ln.toNat + s.eng.i) :=
    ⟨(Engine.footprint_lsel ho _).mpr (.inr (by omega)), by omega⟩
  obtain ⟨x, cur, hx, hc⟩ := lselScanStep_inv h
  obtain rfl := Host.Outcome.next.inj ((lselScanStep_eq hx hc).symm.trans h)
  refine ⟨_, rfl, ?_⟩
  simp only [List.forall_mem_cons, Access.addr]
  exact ⟨hsrc, hdst, hdst, by simp⟩

/-- A legal ENGINE's micro-step adds accesses of the command it runs, and no others. -/
theorem microStep_addsOwnAccesses {s t : State} (hl : s.eng.legal s.cfg.memLimbs = true)
    (h : microStep s = .next t) : s.AddsOwnAccesses t := by
  have word {r : Limb × Bool} (hw : wordStep r s = .next t) : s.AddsOwnAccesses t := by
    obtain rfl := Host.Outcome.next.inj hw
    exact .of_trace_eq rfl
  rcases microStep_cases h with rfl | ⟨hb, ⟨hp, hrun⟩ | ⟨ho, ⟨-, h⟩ | ⟨hp, h⟩⟩⟩
  · exact .of_trace_eq rfl
  · rcases hrun with ⟨-, h⟩ | ⟨-, h⟩ | ⟨-, h⟩ | ⟨-, h⟩ | ⟨ho, h⟩ | ⟨ho, h⟩ | ⟨ho, h⟩ | ⟨ho, h⟩
    · exact word h
    · exact word h
    · exact word h
    · exact word h
    · exact addSubStep_addsOwnAccesses hl hb (.inl ho) hp h
    · exact addSubStep_addsOwnAccesses hl hb (.inr ho) hp h
    · exact lcopyStep_addsOwnAccesses hl hb ho hp h
    · exact lzeroStep_addsOwnAccesses hl hb ho h
  · exact lselZeroStep_addsOwnAccesses hl hb ho h
  · exact lselScanStep_addsOwnAccesses hl hb ho hp h

/-- Settles O54: the invariant makes the ENGINE legal, and a legal ENGINE's micro-step adds only accesses of
its own command. -/
theorem engineStaysInItsFootprint : Obligations.EngineStaysInItsFootprint :=
  fun _ _ ⟨_, _, _, hl, _, _⟩ h => microStep_addsOwnAccesses hl h

end Sys2Proof.Machine

/-!
PROOFS. The command word (30_encoding.md): the nine words written out (O1), decoding what was encoded (O2), the
legal words (O3), the step that runs a decoded word (O4), and the state that an accepted command starts in (O19).
-/
namespace Sys2Proof

/-! ### The opcode map -/

/-- The opcode map gives a command exactly at that command's opcode (30_encoding.md R72). -/
theorem decodeOpcode_eq_some {op : BitVec 8} {i : Instr} : decodeOpcode op = some i ↔ op = i.opcode := by
  constructor
  · intro h
    unfold decodeOpcode at h
    split at h
    case h_10 => cases h
    all_goals
      rename_i hop
      obtain rfl := Option.some.inj h
      exact BitVec.eq_of_toNat_eq hop
  · rintro rfl
    cases i <;> rfl

/-- The values of 30_encoding.md R72 are the opcodes of the commands. -/
theorem mem_opcodes_iff {m : Nat} :
    m ∈ [0x01, 0x02, 0x03, 0x04, 0x10, 0x11, 0x20, 0x30, 0x31] ↔ ∃ i : Instr, m = i.opcode.toNat := by
  constructor
  · simp only [List.mem_cons, List.not_mem_nil, or_false]
    rintro (h | h | h | h | h | h | h | h | h)
    · exact ⟨.adc, h⟩
    · exact ⟨.sbb, h⟩
    · exact ⟨.add, h⟩
    · exact ⟨.sub, h⟩
    · exact ⟨.ladd, h⟩
    · exact ⟨.lsub, h⟩
    · exact ⟨.lsel, h⟩
    · exact ⟨.lcopy, h⟩
    · exact ⟨.lzero, h⟩
  · rintro ⟨i, rfl⟩
    cases i <;> decide

/-! ### The command word -/

/-- The word of a command decodes to it (30_encoding.md R72). -/
theorem decode_encode (i : Instr) : decode (encode i) = .ok i := by cases i <;> rfl

@[simp] theorem encode_toNat (i : Instr) : (encode i).toNat = i.opcode.toNat := by cases i <;> rfl

/-- A word is a command's when it is that command's opcode, zero-extended. -/
theorem eq_encode_iff {v : Limb} {i : Instr} : v = encode i ↔ v.toNat = i.opcode.toNat := by
  rw [← BitVec.toNat_inj, encode_toNat]

/-- RSV = 0 says that the word is a number below 2^8 (30_encoding.md R70). -/
theorem reserved_zero_iff {v : Limb} : v >>> 8 = 0#64 ↔ v.toNat < 2 ^ 8 := by
  rw [← BitVec.toNat_inj, BitVec.toNat_ushiftRight, Nat.shiftRight_eq_div_pow]
  exact Nat.div_eq_zero_iff_lt (by decide)

/-- A word is legal exactly when it is the word of the command it decodes to (30_encoding.md R72, R73). -/
theorem decode_eq_ok {v : Limb} {i : Instr} : decode v = .ok i ↔ v = encode i := by
  constructor
  · intro h
    unfold decode at h
    split at h
    · cases h
    · rename_i hrsv
      have hlt : v.toNat < 2 ^ 8 := reserved_zero_iff.mp (not_not.mp hrsv)
      split at h
      · rename_i hop
        obtain rfl := Except.ok.inj h
        rw [eq_encode_iff, ← decodeOpcode_eq_some.mp hop, BitVec.toNat_setWidth, Nat.mod_eq_of_lt hlt]
      · cases h
  · rintro rfl
    exact decode_encode i

/-- Legality as R73 puts it: bits [W-1:8] are 0 and bits [7:0] are an opcode. -/
theorem legal_iff_bits {v : Limb} : (∃ i, decode v = .ok i) ↔
    v.toNat / 2 ^ 8 = 0 ∧ v.toNat % 2 ^ 8 ∈ [0x01, 0x02, 0x03, 0x04, 0x10, 0x11, 0x20, 0x30, 0x31] := by
  simp only [mem_opcodes_iff, decode_eq_ok, eq_encode_iff]
  constructor
  · rintro ⟨i, hi⟩
    have hlt : i.opcode.toNat < 2 ^ 8 := i.opcode.isLt
    exact ⟨by omega, i, by omega⟩
  · rintro ⟨hdiv, i, hi⟩
    exact ⟨i, by omega⟩

/-- The reading of an opcode-table word is the decoding of the limb it stands for. -/
theorem decodeTableWord_eq_some {nbits w : Nat} {i : Instr} (h : decodeTableWord nbits w = some i) :
    decode (BitVec.ofNat 64 (w % 2 ^ nbits)) = .ok i := by
  unfold decodeTableWord at h
  split at h
  · split at h
    · rename_i hd
      exact hd.trans (congrArg Except.ok (Option.some.inj h))
    · cases h
  · cases h

end Sys2Proof

namespace Sys2Proof.Machine

/-! ### A word written to CMD -/

/-- A step at a CMD write of a W-bit word is that write, its micro-steps granted. -/
theorem step_cmdWrite {s : State} {v : Limb} (hv : Limb.Fits s.cfg.width v) (g : Nat) :
    step (s.withTurn (.regWrite .cmd v) g) = cmdWrite v { s with grant := g } := by
  rw [step_withTurn, transact_regWrite, narrow_of_fits hv, hostRegWrite_cmd]

/-- An illegal word written to CMD of an idle block is rejected with ERR = ILLEGAL (60_exceptions.md R198). -/
theorem cmdWrite_illegal {s : State} {v : Limb} (hb : s.eng.busy = false) (hv : ¬ ∃ i, decode v = .ok i) :
    cmdWrite v s = .next (cmdError .illegal s) := by
  cases hd : decode v with
  | ok i => exact absurd ⟨i, hd⟩ hv
  | error e =>
    have hill : issueIllegal s = cmdError .illegal s := by simp [issueIllegal, hb]
    rw [cmdWrite_error s hd, hill, finish_reject _ hb]

/-- Settles O3: the legal words are the nine encodings, and any other is rejected before any micro-step. -/
theorem legalWordsAreExactlyTheNine : Obligations.LegalWordsAreExactlyTheNine := by
  refine ⟨fun v => legal_iff_bits, fun v i => decode_eq_ok, fun s v g hb hv hill => ?_⟩
  rw [step_cmdWrite hv]
  exact cmdWrite_illegal (s := { s with grant := g }) hb hill

/-- Settles O1: the nine words are the encodings of the commands; the four illegal ones are evaluated. -/
theorem writtenOutCommandWordsDecode : Obligations.WrittenOutCommandWordsDecode :=
  ⟨decode_encode .adc, decode_encode .sbb, decode_encode .add, decode_encode .sub, decode_encode .ladd,
    decode_encode .lsub, decode_encode .lsel, decode_encode .lcopy, decode_encode .lzero, rfl, rfl, rfl, rfl⟩

/-- Settles O2: command by command. -/
theorem encodedCommandDecodesToItself : Obligations.EncodedCommandDecodesToItself :=
  fun i _ => decode_encode i

/-- Settles O4: the port takes a W-bit word whole, and withFetchWord is a turn that writes one to CMD. -/
theorem stepRunsTheDecodedCommand : Obligations.StepRunsTheDecodedCommand := by
  have run (s : State) (v : Limb) (g : Nat) (i : Instr) (hv : Limb.Fits s.cfg.width v) (hd : decode v = .ok i) :
      step (s.withTurn (.regWrite .cmd v) g) = exec i { s with grant := g } := by
    rw [step_cmdWrite hv, cmdWrite_ok _ hd]
  refine ⟨run, fun s nbits w i hw hi => ⟨_, run s _ _ i ?_ (decodeTableWord_eq_some hi)⟩⟩
  rw [Limb.Fits, BitVec.toNat_ofNat]
  exact (Nat.mod_le _ _).trans_lt hw

/-- Settles O19: with no micro-step granted exec is the accept alone. -/
theorem acceptLatchesTheOperands : Obligations.AcceptLatchesTheOperands :=
  fun i s hb ha hg => (exec_accept hb ha).trans (finish_zero (s := accept i (firstPhase i) s) hg)

end Sys2Proof.Machine

/-!
PROOFS. What a command reads (30_encoding.md R71, R80): a running command reads the latched state and LM only (O53),
and of what was latched only its own operands, so a command reads at accept only the registers listed for it (O58).
-/
namespace Sys2Proof.Machine

/-- Settles O53: `u` is `s` in other surroundings, which no run of micro-steps reads. -/
theorem runningCommandReadsOnlyLatchedState : Obligations.RunningCommandReadsOnlyLatchedState := by
  intro s u t j heng hlm hcfg hres hcout htrace h
  have hu : u = s.surroundedBy u := by
    simp only [State.surroundedBy, ← heng, ← hlm, ← hcfg, ← hres, ← hcout, ← htrace]
  have hrun : runEngine j u = .next (t.surroundedBy u) := by
    rw [hu, runEngine_ignoresSurroundings, ← hu, h, andThen_next]
  exact ⟨_, hrun, rfl, rfl, rfl, rfl, rfl⟩

/-! ### What the ENGINE keeps while it runs -/

/-- An LADD or LSUB micro-step past the last limb does nothing. -/
theorem addSubStep_done {prim : Width → Limb → Limb → Bool → Limb × Bool} {s : State}
    (hi : ¬ s.eng.i < s.eng.ln.toNat) : addSubStep prim s = .next s := if_neg hi

/-- An LCOPY micro-step past the last limb does nothing. -/
theorem lcopyStep_done {s : State} (hi : ¬ s.eng.i < s.eng.ln.toNat) : lcopyStep s = .next s := if_neg hi

/-- `t`'s ENGINE holds the opcode and the operands latched in `s`. -/
def State.KeepsLatches (s t : State) : Prop :=
  t.eng = { s.eng with busy := t.eng.busy, phase := t.eng.phase, i := t.eng.i, e := t.eng.e, c := t.eng.c }

theorem wordStep_keepsLatches {r : Limb × Bool} {s t : State} (h : wordStep r s = .next t) : s.KeepsLatches t := by
  obtain rfl := Host.Outcome.next.inj h
  rfl

theorem addSubStep_keepsLatches {prim : Width → Limb → Limb → Bool → Limb × Bool} {s t : State}
    (h : addSubStep prim s = .next t) : s.KeepsLatches t := by
  rcases addSubStep_inv h with ⟨-, rfl⟩ | ⟨hi, x, y, hx, hy⟩
  · rfl
  · obtain rfl := Host.Outcome.next.inj ((addSubStep_eq hi hx hy).symm.trans h)
    rfl

theorem lcopyStep_keepsLatches {s t : State} (h : lcopyStep s = .next t) : s.KeepsLatches t := by
  rcases lcopyStep_inv h with ⟨-, rfl⟩ | ⟨hi, x, hx⟩
  · rfl
  · obtain rfl := Host.Outcome.next.inj ((lcopyStep_eq hi hx).symm.trans h)
    rfl

theorem lzeroStep_keepsLatches {s t : State} (h : lzeroStep s = .next t) : s.KeepsLatches t := by
  by_cases hi : s.eng.i < s.eng.ln.toNat
  · obtain rfl := Host.Outcome.next.inj ((lzeroStep_eq hi).symm.trans h)
    rfl
  · obtain rfl := Host.Outcome.next.inj ((lzeroStep_done hi).symm.trans h)
    rfl

theorem lselZeroStep_keepsLatches {s t : State} (h : lselZeroStep s = .next t) : s.KeepsLatches t := by
  obtain rfl := Host.Outcome.next.inj ((lselZeroStep_eq s).symm.trans h)
  unfold State.KeepsLatches
  split <;> rfl

theorem lselScanStep_keepsLatches {s t : State} (h : lselScanStep s = .next t) : s.KeepsLatches t := by
  obtain ⟨x, cur, hx, hc⟩ := lselScanStep_inv h
  obtain rfl := Host.Outcome.next.inj ((lselScanStep_eq hx hc).symm.trans h)
  unfold State.KeepsLatches
  split
  · split <;> rfl
  · rfl

/-- No micro-step writes the latched opcode or a latched operand (10_state.md R36, 30_encoding.md R80). -/
theorem microStep_keepsLatches {s t : State} (h : microStep s = .next t) : s.KeepsLatches t := by
  rcases microStep_cases h with rfl | ⟨-, ⟨-, hrun⟩ | ⟨-, ⟨-, h⟩ | ⟨-, h⟩⟩⟩
  · rfl
  · rcases hrun with ⟨-, h⟩ | ⟨-, h⟩ | ⟨-, h⟩ | ⟨-, h⟩ | ⟨-, h⟩ | ⟨-, h⟩ | ⟨-, h⟩ | ⟨-, h⟩
    · exact wordStep_keepsLatches h
    · exact wordStep_keepsLatches h
    · exact wordStep_keepsLatches h
    · exact wordStep_keepsLatches h
    · exact addSubStep_keepsLatches h
    · exact addSubStep_keepsLatches h
    · exact lcopyStep_keepsLatches h
    · exact lzeroStep_keepsLatches h
  · exact lselZeroStep_keepsLatches h
  · exact lselScanStep_keepsLatches h

theorem microStep_op {s t : State} (h : microStep s = .next t) : t.eng.op = s.eng.op :=
  (congrArg Engine.op (microStep_keepsLatches h) :)

/-! ### The latched operands that a command does not read -/

/-- `h` with the latched operands that `op` does not read (30_encoding.md R71) taken from `g`. -/
def Engine.withUnread (op : Instr) (h g : Engine) : Engine :=
  match op with
  | .adc | .sbb => { h with lr := g.lr, la := g.la, lb := g.lb, ln := g.ln, lk := g.lk, lidx := g.lidx }
  | .add | .sub => { h with lr := g.lr, la := g.la, lb := g.lb, ln := g.ln, lk := g.lk, lidx := g.lidx, wc := g.wc }
  | .ladd | .lsub => { h with lk := g.lk, lidx := g.lidx, wa := g.wa, wb := g.wb, wc := g.wc }
  | .lsel => { h with lb := g.lb, wa := g.wa, wb := g.wb, wc := g.wc }
  | .lcopy => { h with lb := g.lb, lk := g.lk, lidx := g.lidx, wa := g.wa, wb := g.wb, wc := g.wc }
  | .lzero => { h with la := g.la, lb := g.lb, lk := g.lk, lidx := g.lidx, wa := g.wa, wb := g.wb, wc := g.wc }

/-- `s` with the latched operands that `op` does not read taken from `g`. -/
def State.withUnread (op : Instr) (s : State) (g : Engine) : State := { s with eng := s.eng.withUnread op g }

section
variable (op : Instr) (h g : Engine)

@[simp] theorem Engine.withUnread_busy : (h.withUnread op g).busy = h.busy := by cases op <;> rfl

@[simp] theorem Engine.withUnread_op : (h.withUnread op g).op = h.op := by cases op <;> rfl

@[simp] theorem Engine.withUnread_phase : (h.withUnread op g).phase = h.phase := by cases op <;> rfl

theorem Engine.withUnread_ite (c : Prop) [Decidable c] (h' : Engine) :
    (if c then h else h').withUnread op g = if c then h.withUnread op g else h'.withUnread op g :=
  apply_ite (Engine.withUnread op · g) c h h'

end

/-- Completion leaves the latched operands. -/
theorem complete_withUnread (op : Instr) (g : Engine) (s : State) :
    (complete s).withUnread op g = complete (s.withUnread op g) := by cases op <;> rfl

section
variable (g : Engine) {s t : State}

theorem wordStep_withUnread (op : Instr) {r : Limb × Bool} (h : wordStep r s = .next t) :
    wordStep r (s.withUnread op g) = .next (t.withUnread op g) := by
  obtain rfl := Host.Outcome.next.inj h
  rw [complete_withUnread]
  rfl

theorem addSubStep_withUnread {prim : Width → Limb → Limb → Bool → Limb × Bool} (h : addSubStep prim s = .next t) :
    addSubStep prim (s.withUnread .ladd g) = .next (t.withUnread .ladd g) := by
  rcases addSubStep_inv h with ⟨hi, rfl⟩ | ⟨hi, x, y, hx, hy⟩
  · exact addSubStep_done hi
  · obtain rfl := Host.Outcome.next.inj ((addSubStep_eq hi hx hy).symm.trans h)
    exact addSubStep_eq (s := s.withUnread .ladd g) hi hx hy

theorem lcopyStep_withUnread (h : lcopyStep s = .next t) :
    lcopyStep (s.withUnread .lcopy g) = .next (t.withUnread .lcopy g) := by
  rcases lcopyStep_inv h with ⟨hi, rfl⟩ | ⟨hi, x, hx⟩
  · exact lcopyStep_done hi
  · obtain rfl := Host.Outcome.next.inj ((lcopyStep_eq hi hx).symm.trans h)
    exact lcopyStep_eq (s := s.withUnread .lcopy g) hi hx

theorem lzeroStep_withUnread (h : lzeroStep s = .next t) :
    lzeroStep (s.withUnread .lzero g) = .next (t.withUnread .lzero g) := by
  by_cases hi : s.eng.i < s.eng.ln.toNat
  · obtain rfl := Host.Outcome.next.inj ((lzeroStep_eq hi).symm.trans h)
    exact lzeroStep_eq (s := s.withUnread .lzero g) hi
  · obtain rfl := Host.Outcome.next.inj ((lzeroStep_done hi).symm.trans h)
    exact lzeroStep_done (s := s.withUnread .lzero g) hi

theorem lselZeroStep_withUnread (h : lselZeroStep s = .next t) :
    lselZeroStep (s.withUnread .lsel g) = .next (t.withUnread .lsel g) := by
  obtain rfl := Host.Outcome.next.inj ((lselZeroStep_eq s).symm.trans h)
  refine (lselZeroStep_eq (s.withUnread .lsel g)).trans ?_
  rw [State.withUnread, State.withUnread, Engine.withUnread_ite]
  rfl

theorem lselScanStep_withUnread (h : lselScanStep s = .next t) :
    lselScanStep (s.withUnread .lsel g) = .next (t.withUnread .lsel g) := by
  obtain ⟨x, cur, hx, hc⟩ := lselScanStep_inv h
  obtain rfl := Host.Outcome.next.inj ((lselScanStep_eq hx hc).symm.trans h)
  refine (lselScanStep_eq (s := s.withUnread .lsel g) hx hc).trans ?_
  simp only [State.withUnread, Engine.withUnread_ite]
  rfl

/-- A micro-step of `op` goes the same way with any other latched operands that `op` does not read. -/
theorem microStep_withUnread {op : Instr} (ho : s.eng.op = some op) (h : microStep s = .next t) :
    microStep (s.withUnread op g) = .next (t.withUnread op g) := by
  have hb : (s.withUnread op g).eng.busy = s.eng.busy := Engine.withUnread_busy op s.eng g
  have ho' : (s.withUnread op g).eng.op = some op := (Engine.withUnread_op op s.eng g).trans ho
  have hp : (s.withUnread op g).eng.phase = s.eng.phase := Engine.withUnread_phase op s.eng g
  revert h
  rw [microStep, microStep, hb, ho', hp, ho]
  split
  · split
    case h_11 => exact fun h => by rw [Host.Outcome.next.inj h]
    all_goals
      rename_i hop _
      cases hop
    · exact wordStep_withUnread g .adc
    · exact wordStep_withUnread g .sbb
    · exact wordStep_withUnread g .add
    · exact wordStep_withUnread g .sub
    · exact addSubStep_withUnread g
    · exact addSubStep_withUnread g
    · exact lselZeroStep_withUnread g
    · exact lselScanStep_withUnread g
    · exact lcopyStep_withUnread g
    · exact lzeroStep_withUnread g
  · exact fun h => by rw [Host.Outcome.next.inj h]

/-- So does a run of micro-steps, which runs one command. -/
theorem runEngine_withUnread {op : Instr} {j : Nat} (ho : s.eng.op = some op) (h : runEngine j s = .next t) :
    runEngine j (s.withUnread op g) = .next (t.withUnread op g) := by
  induction j generalizing s with
  | zero => rw [runEngine_zero, Host.Outcome.next.inj h]
  | succ j ih =>
    obtain ⟨u, hu, h⟩ := andThen_eq_next.mp h
    rw [runEngine_succ, microStep_withUnread g ho hu, andThen_next]
    exact ih ((microStep_op hu).trans ho) h

end

/-! ### What a command reads at accept -/

/-- `u` and `s` agree on the registers that 30_encoding.md R71 lists for the command. -/
def SameOperands (i : Instr) (u s : State) : Prop :=
  match i with
  | .adc | .sbb => u.a = s.a ∧ u.b = s.b ∧ u.cin = s.cin
  | .add | .sub => u.a = s.a ∧ u.b = s.b
  | .ladd | .lsub => u.rptr = s.rptr ∧ u.aptr = s.aptr ∧ u.bptr = s.bptr ∧ u.n = s.n
  | .lsel => u.rptr = s.rptr ∧ u.aptr = s.aptr ∧ u.n = s.n ∧ u.k = s.k ∧ u.idx = s.idx
  | .lcopy => u.rptr = s.rptr ∧ u.aptr = s.aptr ∧ u.n = s.n
  | .lzero => u.rptr = s.rptr ∧ u.n = s.n

/-- The verdict on a command reads the build and the command's own registers. -/
theorem SameOperands.acceptCode_eq {i : Instr} {u s : State} (h : SameOperands i u s) (hcfg : u.cfg = s.cfg) :
    acceptCode i u = acceptCode i s := by
  cases i with
  | adc | sbb | add | sub => rfl
  | ladd | lsub =>
    obtain ⟨hr, ha, hb, hn⟩ := h
    simp only [acceptCode, rangeOk, hcfg, hr, ha, hb, hn, reduceCtorEq, false_and]
  | lsel =>
    obtain ⟨hr, ha, hn, hk, hx⟩ := h
    simp only [acceptCode, rangeOk, hcfg, hr, ha, hn, hk, hx]
  | lcopy =>
    obtain ⟨hr, ha, hn⟩ := h
    simp only [acceptCode, rangeOk, hcfg, hr, ha, hn, reduceCtorEq, false_and]
  | lzero =>
    obtain ⟨hr, hn⟩ := h
    simp only [acceptCode, rangeOk, hcfg, hr, hn, reduceCtorEq, false_and]

/-- Accepted with the same operands, the ENGINEs differ only in what the command does not read. -/
theorem SameOperands.accept_eng {i : Instr} {u s : State} (h : SameOperands i u s) (first : Phase) :
    (accept i first u).eng = (accept i first s).eng.withUnread i (accept i first u).eng := by
  cases i <;> simp_all [SameOperands, accept, Engine.withUnread]

/-- A rejected command sets ERR to its verdict and is over (60_exceptions.md R193). -/
theorem exec_reject {i : Instr} {s : State} (hb : s.eng.busy = false) (ha : acceptCode i s ≠ .none) :
    exec i s = .next (cmdError (acceptCode i s) s) := by
  rw [exec_eq, issue_reject _ _ hb ha, finish_reject _ hb]

/-- Settles O58: the verdict is the same, and an accepted `u` is the accepted `s` in other surroundings and with
other latched operands that the command does not read. -/
theorem commandsReadOnlyTheirOperands : Obligations.CommandsReadOnlyTheirOperands := by
  intro i s u t hs hu hcfg hlm htrace hgrant hres hcout hregs h
  have hsame : SameOperands i u s := hregs
  have hcode : acceptCode i u = acceptCode i s := hsame.acceptCode_eq hcfg
  by_cases ha : acceptCode i s = .none
  · rw [exec_accept hs ha] at h
    have hacc : accept i (firstPhase i) u =
        ((accept i (firstPhase i) s).withUnread i (accept i (firstPhase i) u).eng).surroundedBy
          (accept i (firstPhase i) u) := by
      rw [State.surroundedBy, State.withUnread, ← hsame.accept_eng]
      simp only [accept, hcfg, hres, hcout, hlm, htrace]
    have hrun := runEngine_withUnread (accept i (firstPhase i) u).eng (accept_eng_op i _ s) h
    have herr : .none = t.err := (congrArg State.err (runEngine_frame h)).symm
    rw [exec_accept hu (hcode.trans ha), hgrant, hacc, runEngine_ignoresSurroundings, hrun, andThen_next]
    exact ⟨_, rfl, rfl, rfl, rfl, rfl, herr, Engine.withUnread_busy ..⟩
  · rw [exec_reject hs ha] at h
    obtain rfl := Host.Outcome.next.inj h
    exact ⟨_, exec_reject hu (hcode ▸ ha), hres, hcout, hlm, htrace, hcode, hu.trans hs.symm⟩

end Sys2Proof.Machine

/-!
PROOFS. The word commands (40_word_ops.md): what ADC, ADD, SBB and SUB leave, alone (O22, O23), as exact integer
laws (O24) and compared (O25), that they take one micro-step and touch no limb (O26, O29), and the FALLBACK
backend's form of the two primitives (O27).
-/
namespace Sys2Proof.Machine

/-! ### A word command on an idle block -/

/-- What the one micro-step of a word command puts into RES and COUT (40_word_ops.md R105). An array command has no
such micro-step; the registers stand in its place. -/
def wordResult (i : Instr) (s : State) : Limb × Bool :=
  match i with
  | .adc => adcW s.cfg.width s.a s.b s.cin
  | .add => adcW s.cfg.width s.a s.b false
  | .sbb => sbbW s.cfg.width s.a s.b s.cin
  | .sub => sbbW s.cfg.width s.a s.b false
  | .ladd | .lsub | .lsel | .lcopy | .lzero => (s.res, s.cout)

/-- `s` when its word command `i` has completed: RES and COUT written, ERR cleared, the operands latched. -/
def State.wordDone (i : Instr) (s : State) : State :=
  { s with
    err := .none
    res := (wordResult i s).1
    cout := (wordResult i s).2
    eng := { (accept i .run s).eng with busy := false, phase := .idle } }

theorem not_isArrayCommand {i : Instr} (h : i = .adc ∨ i = .sbb ∨ i = .add ∨ i = .sub) :
    isArrayCommand i = false := by
  rcases h with rfl | rfl | rfl | rfl <;> rfl

section
variable {i : Instr} {s : State} (hi : isArrayCommand i = false)
include hi

/-- No check of 30_encoding.md R76 applies to a word command (40_word_ops.md R108). -/
theorem acceptCode_word : acceptCode i s = .none := by
  cases i with
  | adc | sbb | add | sub => rfl
  | ladd | lsub | lsel | lcopy | lzero => exact absurd hi (by decide)

theorem firstPhase_word : firstPhase i = .run := by
  cases i with
  | adc | sbb | add | sub => rfl
  | ladd | lsub | lsel | lcopy | lzero => exact absurd hi (by decide)

/-- An accepted word command's micro-step works on the registers as they are at accept. -/
theorem microStep_accept_word :
    microStep (accept i .run s) = wordStep (wordResult i s) (accept i .run s) := by
  cases i with
  | adc => exact microStep_adc rfl rfl rfl
  | sbb => exact microStep_sbb rfl rfl rfl
  | add => exact microStep_add rfl rfl rfl
  | sub => exact microStep_sub rfl rfl rfl
  | ladd | lsub | lsel | lcopy | lzero => exact absurd hi (by decide)

/-- A word command issued to an idle block is accepted; the turn's first micro-step completes it, and no other one
has an effect. -/
theorem exec_word (hs : s.Idle) : exec i s = .next (if s.grant = 0 then accept i .run s else s.wordDone i) := by
  rw [exec_accept hs (acceptCode_word hi), firstPhase_word hi]
  cases s.grant with
  | zero => rfl
  | succ j => rw [runEngine_succ, microStep_accept_word hi, wordStep_then]; rfl

/-- A word command that is given its one micro-step completes. -/
theorem exec_word_completes (hs : s.Idle) (hg : 1 ≤ s.grant) : exec i s = .next (s.wordDone i) := by
  rw [exec_word hi hs, if_neg (Nat.ne_of_gt hg)]

end

/-! ### The results of the word commands -/

/-- The law of sbb_W over the integers (40_word_ops.md R112). -/
theorem sbbW_exact_int {w : Width} {a b : Limb} (c : Bool) (ha : Limb.Fits w a) (hb : Limb.Fits w b) :
    ((sbbW w a b c).1.toNat : Int) - (sbbW w a b c).2.toNat * 2 ^ w.bits = a.toNat - b.toNat - c.toNat := by
  have h := congrArg (Nat.cast : Nat → Int) (sbbW_exact c ha hb)
  rw [Width.modulus] at h
  push_cast at h
  linarith

/-- Settles O24: the exact laws of the two primitives, on the registers that the invariant makes W-bit numbers. -/
theorem wordCommandLaws : Obligations.WordCommandLaws := by
  intro s hinv hs hg
  obtain ⟨-, ⟨ha, hb, -⟩, -⟩ := hinv
  have borrow (c : Bool) : (sbbW s.cfg.width s.a s.b c).2 = true ↔ s.a.toNat < s.b.toNat + c.toNat := by
    rw [sbbW_borrow, decide_eq_true_iff]
  refine ⟨⟨_, exec_word_completes rfl hs hg, ?_⟩, ⟨_, exec_word_completes rfl hs hg, ?_⟩,
    ⟨_, exec_word_completes rfl hs hg, ?_, ?_⟩, ⟨_, exec_word_completes rfl hs hg, ?_, ?_⟩⟩
  · exact adcW_exact s.cin ha hb
  · exact adcW_exact false ha hb
  · exact sbbW_exact_int s.cin ha hb
  · exact borrow s.cin
  · exact (sbbW_exact_int false ha hb).trans (sub_zero _)
  · exact borrow false

/-- Settles O25: with CIN = 0 the primitive of ADC and of SBB has the operands that ADD and SUB always give it, and
the turn's grant decides alike whether the micro-step is taken. -/
theorem addAndSubIgnoreCarryIn : Obligations.AddAndSubIgnoreCarryIn := by
  intro s hs
  have same {i j : Instr} (hi : isArrayCommand i = false) (hj : isArrayCommand j = false)
      (hr : wordResult i s = wordResult j { s with cin := false }) :
      ∃ t u, exec i s = .next t ∧ exec j { s with cin := false } = .next u ∧
        t.res = u.res ∧ t.cout = u.cout ∧ t.trace = u.trace ∧ t.eng.busy = u.eng.busy := by
    refine ⟨_, _, exec_word hi hs, exec_word hj (by exact hs), ?_⟩
    by_cases hg : s.grant = 0
    · simp [hg]
    · simp [hg, State.wordDone, hr]
  exact ⟨same (i := .add) (j := .adc) rfl rfl rfl, same (i := .sub) (j := .sbb) rfl rfl rfl⟩

/-- Settles O29: neither the accepted state nor the completed one differs elsewhere. -/
theorem wordCommandFrame : Obligations.WordCommandFrame := by
  intro i s t hi hs h
  rw [exec_word (not_isArrayCommand hi) hs] at h
  obtain rfl := Host.Outcome.next.inj h
  split <;> rfl

/-- Settles O22: R100 written out in the completed state. -/
theorem carryCommandsComplete : Obligations.CarryCommandsComplete :=
  fun _ hs hg => ⟨exec_word_completes rfl hs hg, exec_word_completes rfl hs hg⟩

/-- Settles O23: R101 in the completed state. -/
theorem borrowCommandsComplete : Obligations.BorrowCommandsComplete := by
  intro s hs hg
  have diff (c : Bool) : ((sbbW s.cfg.width s.a s.b c).1.toNat : Int) =
      ((s.a.toNat : Int) - s.b.toNat - c.toNat) % 2 ^ s.cfg.width.bits := by
    rw [sbbW_toNat, Width.modulus, Nat.cast_pow, Nat.cast_ofNat]
  have diff_false := diff false
  rw [Bool.toNat_false, Nat.cast_zero, sub_zero] at diff_false
  exact ⟨⟨_, exec_word_completes rfl hs hg, diff s.cin, sbbW_borrow s.cfg.width s.a s.b s.cin, rfl⟩,
    ⟨_, exec_word_completes rfl hs hg, diff_false, sbbW_borrow s.cfg.width s.a s.b false, rfl⟩⟩

/-- Settles O26: the command is running exactly while no micro-step was granted. -/
theorem wordCommandTakesOneMicroStep : Obligations.WordCommandTakesOneMicroStep := by
  intro i s hi hs
  have hw := not_isArrayCommand hi
  refine ⟨_, exec_word hw hs, ?_⟩
  by_cases hg : s.grant = 0
  · rw [if_pos hg]
    exact ⟨by simp [hg], rfl, Engine.footprint_word rfl hw⟩
  · rw [if_neg hg]
    exact ⟨by simp [hg, State.wordDone], rfl, Engine.footprint_word rfl hw⟩

/-! ### The FALLBACK backend's form of the primitives -/

theorem doubleLimb_cast (w : Width) (t : Int) : (doubleLimb w t : Int) = t % (2 ^ w.bits * 2 ^ w.bits) := by
  have h : (2 : Int) ^ (2 * w.bits) = 2 ^ w.bits * 2 ^ w.bits := by rw [two_mul, pow_add]
  rw [doubleLimb, h, Int.toNat_of_nonneg (Int.emod_nonneg _ (by positivity))]

/-- The upper half of a DoubleLimb is the floor of `t / 2^W`, mod 2^W: both residues are written as differences, and
the division by 2^W goes through the first. -/
theorem doubleLimb_div (w : Width) (t : Int) :
    ((doubleLimb w t / 2 ^ w.bits : Nat) : Int) = t / 2 ^ w.bits % 2 ^ w.bits := by
  have hm : (0 : Int) < 2 ^ w.bits := by positivity
  push_cast
  rw [doubleLimb_cast, Int.emod_def t, Int.emod_def (t / _), Int.ediv_ediv_of_nonneg hm.le, mul_assoc, sub_eq_add_neg,
    ← mul_neg, Int.add_mul_ediv_left _ _ hm.ne', sub_eq_add_neg]

/-- Bit W of a DoubleLimb is the parity of the floor of `t / 2^W`. -/
theorem doubleLimb_testBit (w : Width) (t : Int) :
    (doubleLimb w t).testBit w.bits = decide (t / 2 ^ w.bits % 2 = 1) := by
  have heven : (2 : Int) ∣ 2 ^ w.bits := dvd_pow_self 2 (by cases w <;> decide)
  rw [Nat.testBit_eq_decide_div_mod_eq, decide_eq_decide, ← Int.emod_emod_of_dvd _ heven, ← doubleLimb_div]
  omega

/-- The lower half of a DoubleLimb is `t` mod 2^W. -/
theorem narrow_doubleLimb (w : Width) (t : Int) :
    narrow w (doubleLimb w t) = narrow w (t % (w.modulus : Int)).toNat := by
  have hm : (0 : Int) < 2 ^ w.bits := by positivity
  apply BitVec.eq_of_toNat_eq
  rw [narrow_toNat, narrow_toNat, ← Int.natCast_inj, Width.modulus]
  push_cast
  rw [doubleLimb_cast, Int.toNat_of_nonneg (Int.emod_nonneg _ hm.ne'), Int.emod_emod_of_dvd _ (dvd_mul_right _ _),
    Int.emod_emod_of_dvd _ dvd_rfl]

/-- FALLBACK's sum is adc_W: below 2^(W+1), it has bit W set exactly when it reaches 2^W. -/
theorem adcFallback_eq {w : Width} {a b : Limb} (c : Bool) (ha : Limb.Fits w a) (hb : Limb.Fits w b) :
    adcFallback w a b c = adcW w a b c := by
  have ht : a.toNat + b.toNat + c.toNat < 2 * 2 ^ w.bits := by
    have ha' : a.toNat < 2 ^ w.bits := ha
    have hb' : b.toNat < 2 ^ w.bits := hb
    have hc : c.toNat ≤ 1 := Bool.toNat_le c
    omega
  simp only [adcFallback, adcW, ← Nat.cast_add]
  generalize a.toNat + b.toNat + c.toNat = t at ht
  rw [narrow_doubleLimb, doubleLimb_testBit, ← Int.natCast_emod, Int.toNat_natCast, narrow, Nat.mod_mod,
    Width.modulus]
  congr 2
  by_cases h : 2 ^ w.bits ≤ t
  · have hdiv : (t : Int) / 2 ^ w.bits = 1 := by exact_mod_cast Nat.div_eq_of_lt_le (by omega) (by omega)
    simp [h, hdiv]
  · have hdiv : (t : Int) / 2 ^ w.bits = 0 := by exact_mod_cast Nat.div_eq_of_lt (by omega)
    simp [h, hdiv]

/-- A difference of W-bit numbers is at least -2^W, so that one below 0 has floor -1. -/
theorem diff_div_of_neg {w : Width} {a b : Limb} {c : Bool} (hb : Limb.Fits w b)
    (h : (a.toNat : Int) - b.toNat - c.toNat < 0) : ((a.toNat : Int) - b.toNat - c.toNat) / 2 ^ w.bits = -1 := by
  have hc : c.toNat ≤ 1 := Bool.toNat_le c
  have hb' : (b.toNat : Int) < 2 ^ w.bits := by exact_mod_cast hb
  exact Int.ediv_eq_neg_one_of_neg_of_le h (by omega)

/-- FALLBACK's difference is sbb_W: bit W is set exactly when the difference is below 0. -/
theorem sbbFallback_eq {w : Width} {a b : Limb} (c : Bool) (ha : Limb.Fits w a) (hb : Limb.Fits w b) :
    sbbFallback w a b c = sbbW w a b c := by
  simp only [sbbFallback, sbbW]
  rw [narrow_doubleLimb, doubleLimb_testBit]
  congr 2
  by_cases h : (a.toNat : Int) - b.toNat - c.toNat < 0
  · simp [h, diff_div_of_neg hb h]
  · have ha' : (a.toNat : Int) < 2 ^ w.bits := by exact_mod_cast ha
    rw [Int.ediv_eq_zero_of_lt (by omega) (by omega)]
    simp [h]

/-- Settles O27: the underflowing difference has floor -1, whose residue mod 2^W is all ones. -/
theorem fallbackComputesThePrimitives : Obligations.FallbackComputesThePrimitives := by
  intro w a b c ha hb
  refine ⟨adcFallback_eq c ha hb, sbbFallback_eq c ha hb, fun h => ?_⟩
  have hhigh := doubleLimb_div w ((a.toNat : Int) - b.toNat - c.toNat)
  rw [diff_div_of_neg hb h] at hhigh
  rw [← Int.add_emod_right, Int.emod_eq_of_lt (by omega) (by omega), neg_add_eq_sub] at hhigh
  rw [← Int.natCast_inj, hhigh, Nat.cast_pred (Nat.two_pow_pos _), Nat.cast_pow, Nat.cast_ofNat]

end Sys2Proof.Machine

/-!
PROOFS. LADD and LSUB (41_array_addsub.md): their micro-step (O30), the state after any number of them and with it
the step count (O33), the trace (O34) and the frame (O35); then, outside the partial-overlap bands, the result as a
function of the sources alone (O32) and as the sum or difference of two integers (O31).
-/
namespace Sys2Proof.Machine

/-! ### The micro-step -/

/-- The word primitive of LADD or of LSUB (41_array_addsub.md R132). -/
def addSubPrim (op : Instr) : Width → Limb → Limb → Bool → Limb × Bool := if op = .ladd then adcW else sbbW

theorem microStep_addSub {op : Instr} {s : State} (hop : op = .ladd ∨ op = .lsub) (hb : s.eng.busy = true)
    (ho : s.eng.op = some op) (hp : s.eng.phase = .run) : microStep s = addSubStep (addSubPrim op) s := by
  rcases hop with rfl | rfl
  · exact microStep_ladd hb ho hp
  · exact microStep_lsub hb ho hp

/-- Settles O30: the micro-step is addSubStep with the command's primitive, whose next state addSubStep_eq gives. -/
theorem addSubMicroStep : Obligations.AddSubMicroStep := by
  intro s x y hb hp hi ho hx hy
  obtain ⟨op, hop, ho⟩ : ∃ op, (op = .ladd ∨ op = .lsub) ∧ s.eng.op = some op :=
    ho.elim (fun h => ⟨_, .inl rfl, h⟩) fun h => ⟨_, .inr rfl, h⟩
  refine ⟨_, addSubPrim op s.cfg.width x y s.eng.c,
    (microStep_addSub hop hb ho hp).trans (addSubStep_eq hi hx hy), ?_, Memory.read_write_same _ _ _,
    fun p hne => Memory.read_write_other _ _ hne, rfl, rfl, ?_⟩
  · rw [ho]
    rcases hop with rfl | rfl <;> rfl
  · by_cases h : s.eng.i + 1 = s.eng.ln.toNat <;> simp [h, hb, hp]

/-! ### The state after some micro-steps -/

/-- The word primitive on limb `j` of the two sources of `s`, as they stand in `m`, with the carry `c` into it. -/
def State.limbResult (op : Instr) (s : State) (m : Memory) (j : Nat) (c : Bool) : Limb × Bool :=
  addSubPrim op s.cfg.width ((m.read (s.aptr.toNat + j)).getD 0#64) ((m.read (s.bptr.toNat + j)).getD 0#64) c

/-- LM and the internal carry after `j` micro-steps of the command issued in `s` (41_array_addsub.md R132). -/
def State.addSubRun (op : Instr) (s : State) : Nat → Memory × Bool
  | 0 => (s.lm, false)
  | j + 1 =>
    let r := s.limbResult op (s.addSubRun op j).1 j (s.addSubRun op j).2
    ((s.addSubRun op j).1.write (s.rptr.toNat + j) r.1, r.2)

/-- `s` after its LADD or LSUB was accepted and took `j` micro-steps, `j ≤ N`. -/
def State.addSubAfter (op : Instr) (s : State) (j : Nat) : State :=
  { s with
    err := .none
    lm := (s.addSubRun op j).1
    trace := s.trace ++ addSubTrace s.rptr.toNat s.aptr.toNat s.bptr.toNat j
    cout := if j < s.n.toNat then s.cout else (s.addSubRun op j).2
    eng := { (accept op .run s).eng with
      c := (s.addSubRun op j).2
      i := j
      busy := decide (j < s.n.toNat)
      phase := if j < s.n.toNat then .run else .idle } }

/-- After its N micro-steps the command has completed. -/
theorem addSubAfter_n_busy (op : Instr) (s : State) : (s.addSubAfter op s.n.toNat).eng.busy = false :=
  decide_eq_false (Nat.lt_irrefl _)

theorem addSubTrace_succ (lr la lb j : Nat) :
    addSubTrace lr la lb (j + 1) = addSubTrace lr la lb j ++ [.rd (la + j), .rd (lb + j), .wr (lr + j)] := by
  simp [addSubTrace, List.range_succ]

theorem addSubTrace_length (lr la lb n : Nat) : (addSubTrace lr la lb n).length = 3 * n := by
  induction n with
  | zero => rfl
  | succ n ih =>
    rw [addSubTrace_succ, List.length_append, ih]
    rfl

/-- LM after `j` micro-steps differs from LM before only in the first `j` limbs of r. -/
theorem addSubRun_read_outside (op : Instr) (s : State) {j p : Nat}
    (hp : p < s.rptr.toNat ∨ s.rptr.toNat + j ≤ p) : (s.addSubRun op j).1.read p = s.lm.read p := by
  induction j with
  | zero => rfl
  | succ j ih => exact (Memory.read_write_other _ _ (by omega)).trans (ih (by omega))

/-- A limb that holds a value goes on holding one. -/
theorem addSubRun_written (op : Instr) {s : State} {p : Nat} (j : Nat) (h : (s.lm.read p).isSome = true) :
    ((s.addSubRun op j).1.read p).isSome = true := by
  induction j with
  | zero => exact h
  | succ j ih =>
    rw [State.addSubRun, Memory.read_write]
    split
    · rfl
    · exact ih

section
variable {op : Instr} {s : State} (hop : op = .ladd ∨ op = .lsub)
include hop

theorem acceptCode_addSub_pos (ha : acceptCode op s = .none) : 0 < s.n.toNat := by
  obtain ⟨hn, -, -⟩ := acceptCode_eq_none ha
  rcases hop with rfl | rfl <;> exact hn rfl

/-- A command just accepted is one that has taken no micro-step. -/
theorem accept_addSub (hn : 0 < s.n.toNat) : accept op (firstPhase op) s = s.addSubAfter op 0 := by
  have hfirst : firstPhase op = .run := by rcases hop with rfl | rfl <;> rfl
  simp [hfirst, State.addSubAfter, State.addSubRun, addSubTrace, accept, hn]

theorem microStep_addSubAfter {j : Nat} (hj : j < s.n.toNat) :
    microStep (s.addSubAfter op j) = addSubStep (addSubPrim op) (s.addSubAfter op j) :=
  microStep_addSub hop (decide_eq_true hj) rfl (if_pos hj)

/-- One more micro-step whose two source limbs hold values. -/
theorem addSubAfter_succ {j : Nat} {x y : Limb} (hj : j < s.n.toNat)
    (hx : (s.addSubRun op j).1.read (s.aptr.toNat + j) = some x)
    (hy : (s.addSubRun op j).1.read (s.bptr.toNat + j) = some y) :
    microStep (s.addSubAfter op j) = .next (s.addSubAfter op (j + 1)) := by
  rw [microStep_addSubAfter hop hj, addSubStep_eq (s := s.addSubAfter op j) hj hx hy]
  have hlast : j + 1 < s.n.toNat ↔ j + 1 ≠ s.n.toNat := by omega
  simp [State.addSubAfter, State.addSubRun, State.limbResult, addSubTrace_succ, hx, hy, hj, hlast]

/-- A run of `j` micro-steps that answers leaves the state after `j` of them, or after all N that there are. -/
theorem runEngine_addSub_inv {j : Nat} {t : State} (h : runEngine j (s.addSubAfter op 0) = .next t) :
    t = s.addSubAfter op (min j s.n.toNat) := by
  induction j generalizing t with
  | zero => simpa using h.symm
  | succ j ih =>
    obtain ⟨u, hu, h⟩ := andThen_eq_next.mp (runEngine_succ_last j _ ▸ h)
    rw [ih hu] at h
    by_cases hj : j < s.n.toNat
    · rw [Nat.min_eq_left hj.le] at h
      rw [Nat.min_eq_left hj]
      rcases addSubStep_inv (microStep_addSubAfter hop hj ▸ h) with ⟨hi, -⟩ | ⟨-, x, y, hx, hy⟩
      · exact absurd hj hi
      · exact Host.Outcome.next.inj (h.symm.trans (addSubAfter_succ hop hj hx hy))
    · rw [Nat.min_eq_right (by omega)] at h ⊢
      exact Host.Outcome.next.inj (h.symm.trans (microStep_idle (addSubAfter_n_busy op s)))

/-- With both sources written no micro-step faults, overlaps included: a write unwrites no limb. -/
theorem runEngine_addSub (ha : Written s.lm s.aptr.toNat s.n.toNat) (hb : Written s.lm s.bptr.toNat s.n.toNat)
    (j : Nat) : runEngine j (s.addSubAfter op 0) = .next (s.addSubAfter op (min j s.n.toNat)) := by
  induction j with
  | zero => simp
  | succ j ih =>
    rw [runEngine_succ_last, ih, andThen_next]
    by_cases hj : j < s.n.toNat
    · obtain ⟨x, hx⟩ := Option.isSome_iff_exists.mp (addSubRun_written op j (ha j hj))
      obtain ⟨y, hy⟩ := Option.isSome_iff_exists.mp (addSubRun_written op j (hb j hj))
      rw [Nat.min_eq_left hj.le, Nat.min_eq_left hj]
      exact addSubAfter_succ hop hj hx hy
    · rw [Nat.min_eq_right (by omega), Nat.min_eq_right (by omega)]
      exact microStep_idle (addSubAfter_n_busy op s)

section
variable (hs : s.Idle) (hcode : acceptCode op s = .none)
include hs hcode

theorem exec_addSub_eq_runEngine : exec op s = runEngine s.grant (s.addSubAfter op 0) := by
  rw [exec_accept hs hcode, accept_addSub hop (acceptCode_addSub_pos hop hcode)]

theorem exec_addSub_inv {t : State} (h : exec op s = .next t) : t = s.addSubAfter op (min s.grant s.n.toNat) :=
  runEngine_addSub_inv hop (exec_addSub_eq_runEngine hop hs hcode ▸ h)

variable (ha : Written s.lm s.aptr.toNat s.n.toNat) (hb : Written s.lm s.bptr.toNat s.n.toNat)
include ha hb

theorem exec_addSub : exec op s = .next (s.addSubAfter op (min s.grant s.n.toNat)) := by
  rw [exec_addSub_eq_runEngine hop hs hcode, runEngine_addSub hop ha hb]

/-- With its N micro-steps granted the command completes. -/
theorem exec_addSub_completes (hg : s.n.toNat ≤ s.grant) : exec op s = .next (s.addSubAfter op s.n.toNat) := by
  rw [exec_addSub hop hs hcode ha hb, Nat.min_eq_right hg]

end

end

/-! ### Step count, trace and frame -/

/-- Settles O33: BUSY and COUT after min(grant, n) micro-steps. -/
theorem addSubTakesExactlyNMicroSteps : Obligations.AddSubTakesExactlyNMicroSteps := by
  intro op s hop hs hcode ha hb
  have hmin : min s.grant s.n.toNat < s.n.toNat ↔ s.grant < s.n.toNat := by omega
  exact ⟨_, exec_addSub hop hs hcode ha hb, decide_eq_decide.mpr hmin, fun hg => if_pos (hmin.mpr hg)⟩

/-- Settles O34: every micro-step appends its three accesses, and the completed command took n. -/
theorem addSubTraceIsTheFormula : Obligations.AddSubTraceIsTheFormula := by
  intro op s t hop hs hcode hg h
  obtain rfl : t = s.addSubAfter op s.n.toNat := Nat.min_eq_right hg ▸ exec_addSub_inv hop hs hcode h
  exact ⟨rfl, by rw [State.addSubAfter, List.length_append, addSubTrace_length]⟩

/-- Settles O35: an accepted command is some micro-steps on, each writing inside r; a rejected one only set ERR. -/
theorem addSubFrame : Obligations.AddSubFrame := by
  intro op s t hop hs h
  by_cases hcode : acceptCode op s = .none
  · obtain rfl := exec_addSub_inv hop hs hcode h
    exact ⟨rfl, fun p hp => addSubRun_read_outside op s (by omega)⟩
  · obtain rfl := Host.Outcome.next.inj ((exec_reject hs hcode).symm.trans h)
    exact ⟨rfl, fun _ _ => rfl⟩

/-! ### Outside the partial-overlap bands -/

/-- The carry into limb `j` when both sources keep the values they have in `s`. -/
def State.addSubCarry (op : Instr) (s : State) : Nat → Bool
  | 0 => false
  | j + 1 => (s.limbResult op s.lm j (s.addSubCarry op j)).2

/-- Limb `j` of the result when both sources keep the values they have in `s`. -/
def State.addSubLimb (op : Instr) (s : State) (j : Nat) : Limb := (s.limbResult op s.lm j (s.addSubCarry op j)).1

/-- The carry does not depend on where the destination lies. -/
theorem addSubCarry_rptr (op : Instr) (s : State) (d : Limb) (j : Nat) :
    State.addSubCarry op { s with rptr := d } j = s.addSubCarry op j := by
  induction j with
  | zero => rfl
  | succ j ih => rw [State.addSubCarry, ih]; rfl

/-- The result limb does not depend on where the destination lies. -/
theorem addSubLimb_rptr (op : Instr) (s : State) (d : Limb) (j : Nat) :
    State.addSubLimb op { s with rptr := d } j = s.addSubLimb op j := by
  rw [State.addSubLimb, addSubCarry_rptr]
  rfl

/-- A destination disjoint from a source is not in that source's partial-overlap band. -/
theorem Disjoint.not_inBand {d a n : Nat} (h : Disjoint d n a n) : ¬ InBand d a n := by
  rintro ⟨hlow, hhigh⟩
  rcases h with h | h <;> omega

section
variable (op : Instr) {s : State} (hra : ¬ InBand s.rptr.toNat s.aptr.toNat s.n.toNat)
  (hrb : ¬ InBand s.rptr.toNat s.bptr.toNat s.n.toNat)
include hra hrb

/-- Micro-step `j` reads the values that its source limbs had before the command: each earlier write went to a limb
already read or never read (41_array_addsub.md R138). -/
theorem limbResult_addSubRun {j : Nat} (hj : j < s.n.toNat) (c : Bool) :
    s.limbResult op (s.addSubRun op j).1 j c = s.limbResult op s.lm j c := by
  rw [State.limbResult, addSubRun_read_outside op s (by omega), addSubRun_read_outside op s (by omega)]
  rfl

theorem addSubRun_carry {j : Nat} (hj : j ≤ s.n.toNat) : (s.addSubRun op j).2 = s.addSubCarry op j := by
  induction j with
  | zero => rfl
  | succ j ih => rw [State.addSubRun, limbResult_addSubRun op hra hrb hj, ih (by omega), State.addSubCarry]

theorem addSubRun_read {i j : Nat} (hij : i < j) (hj : j ≤ s.n.toNat) :
    (s.addSubRun op j).1.read (s.rptr.toNat + i) = some (s.addSubLimb op i) := by
  induction j with
  | zero => omega
  | succ j ih =>
    rw [State.addSubRun, Memory.read_write, limbResult_addSubRun op hra hrb hj,
      addSubRun_carry op hra hrb (by omega)]
    by_cases h : i = j
    · rw [if_pos (by omega), h, State.addSubLimb]
    · rw [if_neg (by omega), ih (by omega) (by omega)]

theorem addSubAfter_n_cout : (s.addSubAfter op s.n.toNat).cout = s.addSubCarry op s.n.toNat :=
  (if_neg (Nat.lt_irrefl _)).trans (addSubRun_carry op hra hrb le_rfl)

theorem addSubAfter_n_read {i : Nat} (hi : i < s.n.toNat) :
    (s.addSubAfter op s.n.toNat).lm.read (s.rptr.toNat + i) = some (s.addSubLimb op i) :=
  addSubRun_read op hra hrb hi le_rfl

end

/-- Settles O32: in both runs r and COUT are the same function of the sources. -/
theorem aliasedResultIsTheDisjointResult : Obligations.AliasedResultIsTheDisjointResult := by
  intro op s d hop hs hg hcode hcode' ha hb hra hrb hda hdb
  have hda' := Disjoint.not_inBand hda
  have hdb' := Disjoint.not_inBand hdb
  refine ⟨_, _, exec_addSub_completes hop hs hcode ha hb hg,
    exec_addSub_completes (s := { s with rptr := d }) hop hs hcode' ha hb hg, ?_, fun i hi => ?_⟩
  · calc (s.addSubAfter op s.n.toNat).cout
        = s.addSubCarry op s.n.toNat := addSubAfter_n_cout op hra hrb
      _ = State.addSubCarry op { s with rptr := d } s.n.toNat := (addSubCarry_rptr op s d _).symm
      _ = _ := (addSubAfter_n_cout (s := { s with rptr := d }) op hda' hdb').symm
  · calc (s.addSubAfter op s.n.toNat).lm.read (s.rptr.toNat + i)
        = some (s.addSubLimb op i) := addSubAfter_n_read op hra hrb hi
      _ = some (State.addSubLimb op { s with rptr := d } i) := congrArg some (addSubLimb_rptr op s d i).symm
      _ = _ := (addSubAfter_n_read (s := { s with rptr := d }) op hda' hdb' hi).symm

/-! ### The laws -/

theorem Memory.Fits.read_getD {cfg : Config} {m : Memory} (hm : m.Fits cfg) (p : Nat) :
    Limb.Fits cfg.width ((m.read p).getD 0#64) := by
  cases h : m.read p with
  | none => exact zero_fits _
  | some v => exact hm.read h

/-- An n-limb integer is below 2^(n·W). -/
theorem Memory.Fits.int_lt {cfg : Config} {m : Memory} (hm : m.Fits cfg) (base n : Nat) :
    m.int cfg.width base n < cfg.width.modulus ^ n := by
  induction n with
  | zero => simp [Memory.int]
  | succ n ih =>
    have hv : ((m.read (base + n)).getD 0#64).toNat < cfg.width.modulus := hm.read_getD _
    calc m.int cfg.width base (n + 1)
        < cfg.width.modulus ^ n + ((m.read (base + n)).getD 0#64).toNat * cfg.width.modulus ^ n :=
          Nat.add_lt_add_right ih _
      _ = (((m.read (base + n)).getD 0#64).toNat + 1) * cfg.width.modulus ^ n := by ring
      _ ≤ cfg.width.modulus * cfg.width.modulus ^ n := Nat.mul_le_mul_right _ hv
      _ = cfg.width.modulus ^ (n + 1) := by ring

section
variable {s : State} (hm : s.lm.Fits s.cfg) {m : Memory}
include hm

/-- LADD's law for the first `j` limbs, in a memory that holds them: limb by limb, adc_W is exact. -/
theorem ladd_law {j : Nat} (hr : ∀ i < j, m.read (s.rptr.toNat + i) = some (s.addSubLimb .ladd i)) :
    m.int s.cfg.width s.rptr.toNat j + (s.addSubCarry .ladd j).toNat * s.cfg.width.modulus ^ j =
      s.lm.int s.cfg.width s.aptr.toNat j + s.lm.int s.cfg.width s.bptr.toNat j := by
  induction j with
  | zero => simp [Memory.int, State.addSubCarry]
  | succ j ih =>
    have ih := ih fun i hi => hr i (by omega)
    have hlimb : (s.addSubLimb .ladd j).toNat + (s.addSubCarry .ladd (j + 1)).toNat * s.cfg.width.modulus = _ :=
      adcW_exact (s.addSubCarry .ladd j) (hm.read_getD (s.aptr.toNat + j)) (hm.read_getD (s.bptr.toNat + j))
    rw [Memory.int, Memory.int, Memory.int, hr j (by omega), Option.getD_some]
    linear_combination ih + s.cfg.width.modulus ^ j * hlimb

/-- LSUB's law for the first `j` limbs, in a memory that holds them: limb by limb, sbb_W is exact. -/
theorem lsub_law {j : Nat} (hr : ∀ i < j, m.read (s.rptr.toNat + i) = some (s.addSubLimb .lsub i)) :
    m.int s.cfg.width s.rptr.toNat j + s.lm.int s.cfg.width s.bptr.toNat j =
      s.lm.int s.cfg.width s.aptr.toNat j + (s.addSubCarry .lsub j).toNat * s.cfg.width.modulus ^ j := by
  induction j with
  | zero => simp [Memory.int, State.addSubCarry]
  | succ j ih =>
    have ih := ih fun i hi => hr i (by omega)
    have hlimb : (s.addSubLimb .lsub j).toNat + _ + _ =
        _ + (s.addSubCarry .lsub (j + 1)).toNat * s.cfg.width.modulus :=
      sbbW_exact (s.addSubCarry .lsub j) (hm.read_getD (s.aptr.toNat + j)) (hm.read_getD (s.bptr.toNat + j))
    rw [Memory.int, Memory.int, Memory.int, hr j (by omega), Option.getD_some]
    linear_combination ih + s.cfg.width.modulus ^ j * hlimb

end

/-- Settles O31: r and COUT hold the limbs and the carry of the laws; the borrow's meaning follows as the integer
in r is below 2^(n·W). -/
theorem arrayAddSubLaw : Obligations.ArrayAddSubLaw := by
  intro s hinv hs hg hra hrb ha hb
  obtain ⟨-, -, -, -, -, hm⟩ := id hinv
  have hpow : 2 ^ (s.n.toNat * s.cfg.width.bits) = s.cfg.width.modulus ^ s.n.toNat := by
    rw [Width.modulus, ← pow_mul, mul_comm]
  constructor
  · intro hcode
    refine ⟨_, exec_addSub_completes (.inl rfl) hs hcode ha hb hg, addSubAfter_n_busy _ s, rfl, ?_⟩
    rw [hpow, addSubAfter_n_cout .ladd hra hrb]
    exact ladd_law hm fun i hi => addSubAfter_n_read .ladd hra hrb hi
  · intro hcode
    have hexec := exec_addSub_completes (.inr rfl) hs hcode ha hb hg
    obtain ⟨-, -, -, -, -, hm'⟩ := exec_keeps_inv hinv hexec
    have hlt : (s.addSubAfter .lsub s.n.toNat).lm.int s.cfg.width s.rptr.toNat s.n.toNat <
        2 ^ (s.n.toNat * s.cfg.width.bits) := by
      rw [hpow]
      exact hm'.int_lt s.rptr.toNat s.n.toNat
    have hlaw := lsub_law hm fun i hi => addSubAfter_n_read .lsub hra hrb hi
    rw [← addSubAfter_n_cout .lsub hra hrb, ← hpow] at hlaw
    refine ⟨_, hexec, addSubAfter_n_busy _ s, rfl, ?_, ?_⟩
    · have hlawInt := congrArg (Nat.cast : Nat → Int) hlaw
      push_cast at hlawInt
      linarith
    · cases hc : (s.addSubAfter .lsub s.n.toNat).cout with
      | false =>
        rw [hc, Bool.toNat_false, Nat.zero_mul] at hlaw
        exact iff_of_false nofun (by omega)
      | true =>
        rw [hc, Bool.toNat_true, Nat.one_mul] at hlaw
        exact iff_of_true rfl (by omega)

end Sys2Proof.Machine

/-!
PROOFS. LSEL (42_select.md): the contract of its multiplexer (O36) and its two micro-steps (O37), the state after
any number of them and with it the step count (O39) and the trace (O40), the entry that it leaves in r (O38); then
the frame of LSEL, LCOPY and LZERO (O47).
-/
namespace Sys2Proof.Machine

/-! ### The multiplexer and the micro-steps -/

/-- Settles O36: `ct_eq` answers `equal` exactly on equal numbers, and `ct_sel` then takes the first limb. -/
theorem multiplexerContract : Obligations.MultiplexerContract := by
  intro x y p q
  by_cases h : x = y
  · simp only [ctEq, if_pos h, ctSel]
  · simp only [ctEq, if_neg h, ctSel]

/-- Settles O37: the micro-steps are lselZeroStep and lselScanStep, whose next states their equations give. -/
theorem selectMicroSteps : Obligations.SelectMicroSteps :=
  ⟨fun s hb ho hp => ⟨_, (microStep_lsel_zero hb ho hp).trans (lselZeroStep_eq s), rfl, rfl⟩,
    fun _ _ _ hb ho hp hx hc => ⟨_, (microStep_lsel_scan hb ho hp).trans (lselScanStep_eq hx hc), rfl, rfl⟩⟩

/-! ### Runs of micro-steps along known states -/

section
variable {states : Nat → State} {total : Nat} (hend : (states total).eng.busy = false)
include hend

/-- When every micro-step that answers leads to the next of the states listed, up to an idle one, so does a run. -/
theorem runEngine_inv_of_microSteps
    (hstep : ∀ j < total, ∀ t, microStep (states j) = .next t → t = states (j + 1)) {j : Nat} {t : State}
    (h : runEngine j (states 0) = .next t) : t = states (min j total) := by
  induction j generalizing t with
  | zero => simpa using h.symm
  | succ j ih =>
    obtain ⟨u, hu, h⟩ := andThen_eq_next.mp (runEngine_succ_last j _ ▸ h)
    rw [ih hu] at h
    by_cases hj : j < total
    · rw [Nat.min_eq_left hj.le] at h
      rw [Nat.min_eq_left hj, hstep j hj t h]
    · rw [Nat.min_eq_right (by omega)] at h ⊢
      exact Host.Outcome.next.inj (h.symm.trans (microStep_idle hend))

/-- When every micro-step answers with the next of the states listed, up to an idle one, so does a run. -/
theorem runEngine_of_microSteps (hstep : ∀ j < total, microStep (states j) = .next (states (j + 1))) (j : Nat) :
    runEngine j (states 0) = .next (states (min j total)) := by
  induction j with
  | zero => simp
  | succ j ih =>
    rw [runEngine_succ_last, ih, andThen_next]
    by_cases hj : j < total
    · rw [Nat.min_eq_left hj.le, Nat.min_eq_left hj]
      exact hstep j hj
    · rw [Nat.min_eq_right (by omega), Nat.min_eq_right (by omega)]
      exact microStep_idle hend

end

/-- A limb that holds a value holds one after any write. -/
theorem Memory.written_write {m : Memory} {q : Nat} (p : Nat) (v : Limb) (h : (m.read q).isSome = true) :
    ((m.write p v).read q).isSome = true := by
  rw [Memory.read_write]
  split
  · rfl
  · exact h

/-! ### The position of a micro-step

LSEL's micro-steps are numbered from 0 through both phases: number `j` is at limb `j % n`, in ZERO when `j / n = 0`
and else in SCAN at entry `j / n - 1`. -/

/-- The position after the last limb: limb 0 of the next pass. -/
theorem position_succ_wrap {n j : Nat} (h : j % n + 1 = n) : (j + 1) / n = j / n + 1 ∧ (j + 1) % n = 0 := by
  have hj := Nat.div_add_mod j n
  refine (Nat.div_mod_unique (by omega)).mpr ⟨?_, by omega⟩
  rw [Nat.mul_add_one]
  omega

/-- The position after any other limb: the next limb of the same pass. -/
theorem position_succ_next {n j : Nat} (hn : 0 < n) (h : j % n + 1 ≠ n) :
    (j + 1) / n = j / n ∧ (j + 1) % n = j % n + 1 := by
  have hj := Nat.div_add_mod j n
  have hlt := Nat.mod_lt j hn
  exact (Nat.div_mod_unique hn).mpr ⟨by omega, by omega⟩

/-- SCAN goes through the table in address order. -/
theorem scan_table_offset {n j : Nat} (hn : 0 < n) (hj : n ≤ j) : (j / n - 1) * n + j % n = j - n := by
  have hdiv : j / n * n + j % n = j := Nat.div_add_mod' j n
  have hpos : n ≤ j / n * n := Nat.le_mul_of_pos_left n (Nat.div_pos hj hn)
  rw [Nat.sub_one_mul]
  omega

/-- After the last limb of a pass, n * (k + 1) micro-steps have been taken exactly when the pass was number `k`. -/
theorem position_last_iff {n k j : Nat} (h : j % n + 1 = n) : j / n = k ↔ j + 1 = n * (k + 1) := by
  have hdiv := Nat.div_add_mod j n
  have hn : 0 < n := by omega
  rw [← Nat.mul_right_inj hn.ne', Nat.mul_add_one]
  omega

/-! ### The state after some micro-steps -/

/-- What micro-step `j` of LSEL writes, with LM as it stands in `m` (42_select.md R153, R154). -/
def State.selectLimb (s : State) (m : Memory) (j : Nat) : Limb :=
  if j < s.n.toNat then 0#64
  else if s.idx.toNat = j / s.n.toNat - 1 then (m.read (s.aptr.toNat + (j - s.n.toNat))).getD 0#64
  else (m.read (s.rptr.toNat + j % s.n.toNat)).getD 0#64

/-- LM after `j` micro-steps of the LSEL issued in `s`. -/
def State.selectRun (s : State) : Nat → Memory
  | 0 => s.lm
  | j + 1 => (s.selectRun j).write (s.rptr.toNat + j % s.n.toNat) (s.selectLimb (s.selectRun j) j)

/-- The accesses of micro-step `j` of LSEL (42_select.md R153, R154). -/
def selectAccesses (lr la ln j : Nat) : List Access :=
  if j < ln then [.wr (lr + j % ln)] else [.rd (la + (j - ln)), .rd (lr + j % ln), .wr (lr + j % ln)]

/-- The ENGINE of `s` after its LSEL was accepted and took `j` micro-steps. -/
def State.selectEngine (s : State) (j : Nat) : Engine :=
  { (accept .lsel .zero s).eng with
    busy := decide (j < s.n.toNat * (s.k.toNat + 1))
    phase := if j < s.n.toNat then .zero else if j < s.n.toNat * (s.k.toNat + 1) then .scan else .idle
    i := j % s.n.toNat
    e := j / s.n.toNat - 1 }

/-- `s` after its LSEL was accepted and took `j` micro-steps, `j ≤ N * (K + 1)`. -/
def State.selectAfter (s : State) (j : Nat) : State :=
  { s with
    err := .none
    lm := s.selectRun j
    trace := s.trace ++ (List.range j).flatMap (selectAccesses s.rptr.toNat s.aptr.toNat s.n.toNat)
    eng := s.selectEngine j }

/-- After its N * (K + 1) micro-steps the command has completed. -/
theorem selectAfter_total_busy (s : State) : (s.selectAfter (s.n.toNat * (s.k.toNat + 1))).eng.busy = false :=
  decide_eq_false (Nat.lt_irrefl _)

/-- A limb that holds a value goes on holding one. -/
theorem selectRun_written {s : State} {p : Nat} (j : Nat) (h : (s.lm.read p).isSome = true) :
    ((s.selectRun j).read p).isSome = true := by
  induction j with
  | zero => exact h
  | succ j ih => exact Memory.written_write _ _ ih

/-- ZERO writes every limb of r, so that SCAN can read it back. -/
theorem selectRun_destination_written (s : State) {i j : Nat} (hi : i < s.n.toNat) (hij : i < j) :
    ((s.selectRun j).read (s.rptr.toNat + i)).isSome = true := by
  induction j with
  | zero => omega
  | succ j ih =>
    by_cases h : i = j
    · rw [State.selectRun, ← h, Nat.mod_eq_of_lt hi, Memory.read_write_same]
      rfl
    · exact Memory.written_write _ _ (ih (by omega))

/-- LM after any number of micro-steps differs from LM before only in r. -/
theorem selectRun_read_outside {s : State} (hn : 0 < s.n.toNat) {p : Nat}
    (hp : p < s.rptr.toNat ∨ s.rptr.toNat + s.n.toNat ≤ p) (j : Nat) : (s.selectRun j).read p = s.lm.read p := by
  induction j with
  | zero => rfl
  | succ j ih =>
    have hlt := Nat.mod_lt j hn
    exact (Memory.read_write_other _ _ (by omega)).trans ih

section
variable {s : State} {j : Nat}

/-- The end of a ZERO micro-step: the next limb, or the start of SCAN. -/
theorem selectEngine_succ_of_zero (hk : 0 < s.k.toNat) (hj : j < s.n.toNat) :
    (if (s.selectEngine j).i + 1 = (s.selectEngine j).ln.toNat then
        { s.selectEngine j with i := 0, e := 0, phase := .scan }
      else { s.selectEngine j with i := (s.selectEngine j).i + 1 }) = s.selectEngine (j + 1) := by
  have hlong : s.n.toNat < s.n.toNat * (s.k.toNat + 1) := lt_mul_of_one_lt_right (by omega) (by omega)
  have hi : j % s.n.toNat = j := Nat.mod_eq_of_lt hj
  by_cases h : j + 1 = s.n.toNat
  · simp [State.selectEngine, hi, h, Nat.div_self (Nat.zero_lt_of_lt hj), hlong, hj.trans hlong]
  · have hj' : j + 1 < s.n.toNat := by omega
    simp [State.selectEngine, hi, h, Nat.mod_eq_of_lt, hj, hj', hj.trans hlong, hj'.trans hlong, Nat.div_eq_of_lt]

/-- The end of a SCAN micro-step: the next limb, the next entry, or completion. -/
theorem selectEngine_succ_of_scan (hn : 0 < s.n.toNat) (hscan : s.n.toNat ≤ j)
    (hj : j < s.n.toNat * (s.k.toNat + 1)) :
    (if (s.selectEngine j).i + 1 = (s.selectEngine j).ln.toNat then
        if (s.selectEngine j).e + 1 = (s.selectEngine j).lk.toNat then
          { s.selectEngine j with i := 0, e := (s.selectEngine j).e + 1, busy := false, phase := .idle }
        else { s.selectEngine j with i := 0, e := (s.selectEngine j).e + 1 }
      else { s.selectEngine j with i := (s.selectEngine j).i + 1 }) = s.selectEngine (j + 1) := by
  have hscan' : ¬ j + 1 < s.n.toNat := by omega
  by_cases hi : j % s.n.toNat + 1 = s.n.toNat
  · obtain ⟨hdiv, hmod⟩ := position_succ_wrap hi
    have he : j / s.n.toNat - 1 + 1 = j / s.n.toNat := Nat.sub_add_cancel (Nat.div_pos hscan hn)
    have hlast := position_last_iff (k := s.k.toNat) hi
    by_cases hk : j / s.n.toNat = s.k.toNat
    · have hdone : ¬ j + 1 < s.n.toNat * (s.k.toNat + 1) := by omega
      rw [if_pos (by exact hi), if_pos (by exact he.trans hk)]
      simp [State.selectEngine, hdiv, hmod, he, hscan', hdone]
    · have hmore : j + 1 < s.n.toNat * (s.k.toNat + 1) := by omega
      rw [if_pos (by exact hi), if_neg (by exact fun h => hk (he.symm.trans h))]
      simp [State.selectEngine, hdiv, hmod, he, hscan', hscan.not_gt, hmore, hj]
  · obtain ⟨hdiv, hmod⟩ := position_succ_next hn hi
    have hmore : j + 1 < s.n.toNat * (s.k.toNat + 1) :=
      lt_of_le_of_ne hj fun h => by rw [h, Nat.mul_mod_right] at hmod; omega
    rw [if_neg (by exact hi)]
    simp [State.selectEngine, hdiv, hmod, hscan', hscan.not_gt, hmore, hj]

/-- One more micro-step: its write, its accesses, and the ENGINE moved on. -/
theorem selectAfter_succ {g : Engine} {p : Nat} {v : Limb} {evs : List Access}
    (hp : p = s.rptr.toNat + j % s.n.toNat) (hv : v = s.selectLimb (s.selectRun j) j)
    (hevs : evs = selectAccesses s.rptr.toNat s.aptr.toNat s.n.toNat j) (hg : g = s.selectEngine (j + 1)) :
    { s.selectAfter j with
      lm := (s.selectAfter j).lm.write p v
      trace := (s.selectAfter j).trace ++ evs
      eng := g } = s.selectAfter (j + 1) := by
  subst hp hv hevs hg
  simp [State.selectAfter, State.selectRun, List.range_succ]

/-- In ZERO the micro-step takes the command one further. -/
theorem microStep_selectAfter_zero (hk : 0 < s.k.toNat) (hj : j < s.n.toNat) :
    microStep (s.selectAfter j) = .next (s.selectAfter (j + 1)) := by
  have hlong : s.n.toNat < s.n.toNat * (s.k.toNat + 1) := lt_mul_of_one_lt_right (by omega) (by omega)
  rw [microStep_lsel_zero (s := s.selectAfter j) (decide_eq_true (hj.trans hlong)) rfl (if_pos hj), lselZeroStep_eq]
  exact congrArg _ (selectAfter_succ rfl (if_pos hj).symm (if_pos hj).symm (selectEngine_succ_of_zero hk hj))

/-- In SCAN it does so when limb `j - N` of the table holds a value, and else faults: limb `j % N` of r was written
by ZERO. -/
theorem microStep_selectAfter_scan (hn : 0 < s.n.toNat) (hscan : s.n.toNat ≤ j)
    (hj : j < s.n.toNat * (s.k.toNat + 1)) :
    microStep (s.selectAfter j) =
      if ((s.selectRun j).read (s.aptr.toNat + (j - s.n.toNat))).isSome = true then .next (s.selectAfter (j + 1))
      else .fault .uninitRead := by
  have hsrc : (s.selectAfter j).eng.la.toNat + (s.selectAfter j).eng.e * (s.selectAfter j).eng.ln.toNat +
      (s.selectAfter j).eng.i = s.aptr.toNat + (j - s.n.toNat) :=
    (Nat.add_assoc _ _ _).trans (congrArg (s.aptr.toNat + ·) (scan_table_offset hn hscan))
  have hphase : (s.selectAfter j).eng.phase = .scan := (if_neg hscan.not_gt).trans (if_pos hj)
  rw [microStep_lsel_scan (s := s.selectAfter j) (decide_eq_true hj) rfl hphase]
  cases hx : (s.selectRun j).read (s.aptr.toNat + (j - s.n.toNat)) with
  | none => exact lselScanStep_unwritten (.inl (hsrc ▸ hx))
  | some x =>
    have hlt := Nat.mod_lt j hn
    obtain ⟨cur, hc⟩ := Option.isSome_iff_exists.mp (selectRun_destination_written s hlt (hlt.trans_le hscan))
    rw [lselScanStep_eq (s := s.selectAfter j) (hsrc ▸ hx) hc, hsrc]
    refine congrArg _ (selectAfter_succ rfl ?_ (if_neg hscan.not_gt).symm (selectEngine_succ_of_scan hn hscan hj))
    rw [State.selectLimb, if_neg hscan.not_gt, hx, hc]
    rfl

end

section
variable {s : State} (hs : s.Idle) (hcode : acceptCode .lsel s = .none)
include hcode

theorem acceptCode_lsel_pos : 0 < s.n.toNat ∧ s.idx.toNat < s.k.toNat := by
  obtain ⟨hn, -, hx⟩ := acceptCode_eq_none hcode
  exact ⟨hn rfl, hx rfl⟩

include hs

/-- A command just accepted is one that has taken no micro-step. -/
theorem exec_lsel_eq_runEngine : exec .lsel s = runEngine s.grant (s.selectAfter 0) := by
  obtain ⟨hn, -⟩ := acceptCode_lsel_pos hcode
  rw [exec_accept hs hcode]
  congr 1
  simp [State.selectAfter, State.selectEngine, State.selectRun, accept, firstPhase, hn]

/-- An LSEL that answers leaves the state after the micro-steps granted, or after all that there are. -/
theorem exec_lsel_inv {t : State} (h : exec .lsel s = .next t) :
    t = s.selectAfter (min s.grant (s.n.toNat * (s.k.toNat + 1))) := by
  obtain ⟨hn, hx⟩ := acceptCode_lsel_pos hcode
  rw [exec_lsel_eq_runEngine hs hcode] at h
  refine runEngine_inv_of_microSteps (selectAfter_total_busy s) (fun j hj u hu => ?_) h
  by_cases hzero : j < s.n.toNat
  · rw [microStep_selectAfter_zero (Nat.zero_lt_of_lt hx) hzero] at hu
    exact (Host.Outcome.next.inj hu).symm
  · rw [microStep_selectAfter_scan hn (Nat.not_lt.mp hzero) hj] at hu
    split at hu
    · exact (Host.Outcome.next.inj hu).symm
    · cases hu

/-- With the table written no micro-step faults, overlaps included: a write unwrites no limb. -/
theorem exec_lsel (hw : Written s.lm s.aptr.toNat (s.n.toNat * s.k.toNat)) :
    exec .lsel s = .next (s.selectAfter (min s.grant (s.n.toNat * (s.k.toNat + 1)))) := by
  obtain ⟨hn, hx⟩ := acceptCode_lsel_pos hcode
  rw [exec_lsel_eq_runEngine hs hcode]
  refine runEngine_of_microSteps (selectAfter_total_busy s) (fun j hj => ?_) s.grant
  by_cases hzero : j < s.n.toNat
  · exact microStep_selectAfter_zero (Nat.zero_lt_of_lt hx) hzero
  · rw [Nat.mul_add_one] at hj
    rw [microStep_selectAfter_scan hn (Nat.not_lt.mp hzero) hj]
    exact if_pos (selectRun_written j (hw _ (by omega)))

end

/-! ### Step count and trace -/

/-- Settles O39: BUSY and the phase after min(grant, n * (k + 1)) micro-steps. -/
theorem selectTakesExactlyItsMicroSteps : Obligations.SelectTakesExactlyItsMicroSteps := by
  intro s hs hcode hw
  have htotal : s.n.toNat + s.n.toNat * s.k.toNat = s.n.toNat * (s.k.toNat + 1) := by ring
  have hzero : min s.grant (s.n.toNat * (s.k.toNat + 1)) < s.n.toNat ↔ s.grant < s.n.toNat := by omega
  have hmore : min s.grant (s.n.toNat * (s.k.toNat + 1)) < s.n.toNat * (s.k.toNat + 1) ↔
      s.grant < s.n.toNat * (s.k.toNat + 1) := by omega
  refine ⟨htotal, _, exec_lsel hs hcode hw, decide_eq_decide.mpr hmore, ?_⟩
  simp only [State.selectAfter, State.selectEngine, hzero, hmore]

theorem selectTrace_succ (lr la ln k : Nat) :
    selectTrace lr la ln (k + 1) = selectTrace lr la ln k ++
      (List.range ln).flatMap fun i => [.rd (la + k * ln + i), .rd (lr + i), .wr (lr + i)] := by
  simp [selectTrace, List.range_succ]

/-- The accesses of all n * (k + 1) micro-steps, one pass of n after the other, are the formula. -/
theorem flatMap_selectAccesses (lr la ln k : Nat) :
    (List.range (ln * (k + 1))).flatMap (selectAccesses lr la ln) = selectTrace lr la ln k := by
  induction k with
  | zero =>
    rw [Nat.zero_add, Nat.mul_one, selectTrace, List.range_zero, List.flatMap_nil, List.append_nil,
      ← List.flatMap_pure_eq_map]
    refine List.flatMap_congr fun i hi => ?_
    have hi := List.mem_range.mp hi
    rw [selectAccesses, if_pos hi, Nat.mod_eq_of_lt hi]
    rfl
  | succ k ih =>
    rw [Nat.mul_add_one ln (k + 1), List.range_add, List.flatMap_append, ih, selectTrace_succ, List.flatMap_map]
    congr 1
    refine List.flatMap_congr fun i hi => ?_
    have hi := List.mem_range.mp hi
    have hpass : ¬ ln * (k + 1) + i < ln := by rw [Nat.mul_add_one]; omega
    have hsrc : la + (ln * (k + 1) + i - ln) = la + k * ln + i := by rw [Nat.mul_add_one, Nat.mul_comm k]; omega
    rw [selectAccesses, if_neg hpass, hsrc, Nat.mul_add_mod, Nat.mod_eq_of_lt hi]

theorem selectTrace_length (lr la ln k : Nat) : (selectTrace lr la ln k).length = ln + 3 * ln * k := by
  induction k with
  | zero => simp [selectTrace]
  | succ k ih =>
    have hpass : ((List.range ln).flatMap fun i =>
        [Access.rd (la + k * ln + i), .rd (lr + i), .wr (lr + i)]).length = ln * 3 := by simp [List.length_flatMap]
    rw [selectTrace_succ, List.length_append, ih, hpass]
    ring

/-- Settles O40: each micro-step appends its own accesses, and the completed command took n * (k + 1). -/
theorem selectTraceIsTheFormula : Obligations.SelectTraceIsTheFormula := by
  intro s t hs hcode hg h
  have ht : t.trace = s.trace ++ selectTrace s.rptr.toNat s.aptr.toNat s.n.toNat s.k.toNat := by
    rw [exec_lsel_inv hs hcode h, Nat.min_eq_right hg, State.selectAfter, flatMap_selectAccesses]
  exact ⟨ht, by rw [ht, List.length_append, selectTrace_length]⟩

/-! ### The entry that is left in r -/

section
variable {s : State} {i : Nat} (hi : i < s.n.toNat)
include hi

/-- The position of the micro-step that copies limb `i` of entry IDX. -/
theorem copy_position_iff {j : Nat} :
    j = (s.idx.toNat + 1) * s.n.toNat + i ↔ j / s.n.toNat = s.idx.toNat + 1 ∧ j % s.n.toNat = i := by
  rw [Nat.div_mod_unique (Nat.zero_lt_of_lt hi), Nat.mul_comm, Nat.add_comm i, eq_comm]
  exact (and_iff_left hi).symm

/-- Every other SCAN micro-step leaves limb `i` of r: it writes another limb, or writes back what it read. -/
theorem selectRun_succ_read_destination {j : Nat} (hscan : s.n.toNat ≤ j)
    (hj : j ≠ (s.idx.toNat + 1) * s.n.toNat + i) :
    (s.selectRun (j + 1)).read (s.rptr.toNat + i) = (s.selectRun j).read (s.rptr.toNat + i) := by
  have hpass : 0 < j / s.n.toNat := Nat.div_pos hscan (Nat.zero_lt_of_lt hi)
  rw [State.selectRun]
  by_cases hlimb : j % s.n.toNat = i
  · obtain ⟨cur, hc⟩ := Option.isSome_iff_exists.mp (selectRun_destination_written s hi (hi.trans_le hscan))
    have hentry : s.idx.toNat ≠ j / s.n.toNat - 1 := fun h => hj ((copy_position_iff hi).mpr ⟨by omega, hlimb⟩)
    rw [State.selectLimb, if_neg hscan.not_gt, if_neg hentry, hlimb, Memory.read_write_same, hc]
    rfl
  · exact Memory.read_write_other _ _ (by omega)

/-- With r disjoint from the table, the micro-step that copies limb `i` of entry IDX finds the limb as it was. -/
theorem selectRun_read_copied (hx : s.idx.toNat < s.k.toNat)
    (hd : Disjoint s.rptr.toNat s.n.toNat s.aptr.toNat (s.n.toNat * s.k.toNat))
    (hw : Written s.lm s.aptr.toNat (s.n.toNat * s.k.toNat)) :
    (s.selectRun ((s.idx.toNat + 1) * s.n.toNat + i + 1)).read (s.rptr.toNat + i) =
      s.lm.read (s.aptr.toNat + s.idx.toNat * s.n.toNat + i) := by
  have htable := entry_limb_lt_table hx hi
  obtain ⟨hdiv, hmod⟩ := (copy_position_iff hi).mp (rfl : (s.idx.toNat + 1) * s.n.toNat + i = _)
  have hscan : ¬ (s.idx.toNat + 1) * s.n.toNat + i < s.n.toNat := by rw [Nat.add_one_mul]; omega
  have hsrc : (s.idx.toNat + 1) * s.n.toNat + i - s.n.toNat = s.idx.toNat * s.n.toNat + i := by
    rw [Nat.add_one_mul]
    omega
  obtain ⟨x, hxv⟩ := Option.isSome_iff_exists.mp (hw _ htable)
  rw [State.selectRun, hmod, Memory.read_write_same, State.selectLimb, if_neg hscan, hdiv, Nat.add_sub_cancel,
    if_pos rfl, hsrc, selectRun_read_outside (Nat.zero_lt_of_lt hi) (by omega), Nat.add_assoc, hxv]
  rfl

/-- From the copying micro-step on, limb `i` of r is limb `i` of entry IDX. -/
theorem selectRun_read_entry (hx : s.idx.toNat < s.k.toNat)
    (hd : Disjoint s.rptr.toNat s.n.toNat s.aptr.toNat (s.n.toNat * s.k.toNat))
    (hw : Written s.lm s.aptr.toNat (s.n.toNat * s.k.toNat)) {j : Nat}
    (hj : (s.idx.toNat + 1) * s.n.toNat + i < j) :
    (s.selectRun j).read (s.rptr.toNat + i) = s.lm.read (s.aptr.toNat + s.idx.toNat * s.n.toNat + i) := by
  have hscan : s.n.toNat ≤ (s.idx.toNat + 1) * s.n.toNat := Nat.le_mul_of_pos_left _ (Nat.succ_pos _)
  induction j, hj using Nat.le_induction with
  | base => exact selectRun_read_copied hi hx hd hw
  | succ j hj ih => exact (selectRun_succ_read_destination hi (by omega) (by omega)).trans ih

end

/-- Settles O38: the micro-step that copies limb `i` of entry IDX is one of the n * (k + 1). -/
theorem selectPutsTheEntryInR : Obligations.SelectPutsTheEntryInR := by
  intro s hs hcode hg hd hw
  obtain ⟨hn, hx⟩ := acceptCode_lsel_pos hcode
  refine ⟨_, (Nat.min_eq_right hg ▸ exec_lsel hs hcode hw :), selectAfter_total_busy s, rfl, fun i hi => ?_,
    fun p hp => selectRun_read_outside hn hp _⟩
  have htable := entry_limb_lt_table hx hi
  exact selectRun_read_entry hi hx hd hw (by rw [Nat.add_one_mul, Nat.mul_add_one]; omega)

/-! ### The frame of LSEL, LCOPY and LZERO -/

/-- `t` is `s` but for ERR, the ENGINE, the trace and the limbs of the array at `base`. -/
def State.ChangedOnlyIn (base n : Nat) (s t : State) : Prop :=
  t = { s with err := t.err, eng := t.eng, trace := t.trace, lm := t.lm } ∧
    ∀ p, p < base ∨ base + n ≤ p → t.lm.read p = s.lm.read p

theorem State.ChangedOnlyIn.trans {base n : Nat} {s t u : State} (hst : s.ChangedOnlyIn base n t)
    (htu : t.ChangedOnlyIn base n u) : s.ChangedOnlyIn base n u := by
  obtain ⟨ht, hlm⟩ := hst
  obtain ⟨hu, hlm'⟩ := htu
  exact ⟨by rw [hu, ht], fun p hp => (hlm' p hp).trans (hlm p hp)⟩

theorem State.ChangedOnlyIn.refl (base n : Nat) (s : State) : s.ChangedOnlyIn base n s := ⟨rfl, fun _ _ => rfl⟩

/-- Writing one limb of the array, with its accesses and the ENGINE's advance, is such a change. -/
theorem State.ChangedOnlyIn.of_write {base n i : Nat} (hi : i < n) (s : State) (v : Limb) (evs : List Access)
    (g : Engine) :
    s.ChangedOnlyIn base n { s with lm := s.lm.write (base + i) v, trace := evs, eng := g } :=
  ⟨rfl, fun _ _ => Memory.read_write_other _ _ (by omega)⟩

theorem lcopyStep_changedOnlyIn {s t : State} (h : lcopyStep s = .next t) :
    s.ChangedOnlyIn s.eng.lr.toNat s.eng.ln.toNat t := by
  rcases lcopyStep_inv h with ⟨-, rfl⟩ | ⟨hi, x, hx⟩
  · exact .refl _ _ _
  · obtain rfl := Host.Outcome.next.inj ((lcopyStep_eq hi hx).symm.trans h)
    exact .of_write hi s _ _ _

theorem lzeroStep_changedOnlyIn {s t : State} (h : lzeroStep s = .next t) :
    s.ChangedOnlyIn s.eng.lr.toNat s.eng.ln.toNat t := by
  by_cases hi : s.eng.i < s.eng.ln.toNat
  · obtain rfl := Host.Outcome.next.inj ((lzeroStep_eq hi).symm.trans h)
    exact .of_write hi s _ _ _
  · obtain rfl := Host.Outcome.next.inj ((lzeroStep_done hi).symm.trans h)
    exact .refl _ _ _

/-- A micro-step of LCOPY or LZERO writes no register, and no limb outside the latched r. -/
theorem microStep_copyZero_changedOnlyIn {op : Instr} {s t : State} (hop : op = .lcopy ∨ op = .lzero)
    (ho : s.eng.op = some op) (h : microStep s = .next t) : s.ChangedOnlyIn s.eng.lr.toNat s.eng.ln.toNat t := by
  rcases microStep_cases h with rfl | ⟨-, ⟨-, hrun⟩ | ⟨hsel, -⟩⟩
  · exact .refl _ _ _
  · rcases hop with rfl | rfl
    · exact lcopyStep_changedOnlyIn (by simpa [ho] using hrun)
    · exact lzeroStep_changedOnlyIn (by simpa [ho] using hrun)
  · rcases hop with rfl | rfl <;> cases ho.symm.trans hsel

/-- Nor does a run of them: no micro-step changes the latched opcode, lr or ln. -/
theorem runEngine_copyZero_changedOnlyIn {op : Instr} {s t : State} (hop : op = .lcopy ∨ op = .lzero)
    (ho : s.eng.op = some op) {j : Nat} (h : runEngine j s = .next t) :
    s.ChangedOnlyIn s.eng.lr.toNat s.eng.ln.toNat t := by
  induction j generalizing s with
  | zero =>
    obtain rfl := Host.Outcome.next.inj h
    exact .refl _ _ _
  | succ j ih =>
    obtain ⟨u, hu, h⟩ := andThen_eq_next.mp h
    have hrun := ih ((microStep_op hu).trans ho) h
    rw [microStep_keepsLatches hu] at hrun
    exact (microStep_copyZero_changedOnlyIn hop ho hu).trans hrun

/-- Settles O47: a rejected command only set ERR; an accepted one is some micro-steps on, each writing inside r. -/
theorem selectCopyZeroFrame : Obligations.SelectCopyZeroFrame := by
  intro op s t hop hs h
  change s.ChangedOnlyIn s.rptr.toNat s.n.toNat t
  by_cases hcode : acceptCode op s = .none
  · rcases hop with rfl | hop
    · obtain ⟨hn, -⟩ := acceptCode_lsel_pos hcode
      obtain rfl := exec_lsel_inv hs hcode h
      exact ⟨rfl, fun _ hp => selectRun_read_outside hn hp _⟩
    · have haccept : s.ChangedOnlyIn s.rptr.toNat s.n.toNat (accept op (firstPhase op) s) := ⟨rfl, fun _ _ => rfl⟩
      rw [exec_accept hs hcode] at h
      exact haccept.trans (runEngine_copyZero_changedOnlyIn hop (accept_eng_op op _ s) h)
  · obtain rfl := Host.Outcome.next.inj ((exec_reject hs hcode).symm.trans h)
    exact ⟨rfl, fun _ _ => rfl⟩

end Sys2Proof.Machine

/-!
PROOFS. LCOPY and LZERO (43_copy_zero.md): their micro-steps (O41), the state after any number of them and with it
the traces (O43, O45); then what LZERO leaves in r (O44), what LCOPY leaves there for every overlap (O42), and the
laws of the two (O46).
-/
namespace Sys2Proof.Machine

/-! ### The micro-steps -/

/-- Settles O41: the micro-steps are lcopyStep and lzeroStep, whose next states their equations give. -/
theorem copyAndZeroMicroSteps : Obligations.CopyAndZeroMicroSteps := by
  refine ⟨fun s x hb ho hp hi hx => ⟨_, (microStep_lcopy hb ho hp).trans (lcopyStep_eq hi hx), rfl, ?_⟩,
    fun s hb ho hp hi => ⟨_, (microStep_lzero hb ho hp).trans (lzeroStep_eq hi), rfl, ?_⟩⟩
  · simp [hb, hp]
  · simp [hb, hp]

/-! ### The state after some micro-steps -/

/-- What micro-step `j` of LCOPY or LZERO writes, with LM as it stands in `m` (43_copy_zero.md R172, R176). -/
def State.copyZeroLimb (op : Instr) (s : State) (m : Memory) (j : Nat) : Limb :=
  if op = .lcopy then (m.read (s.aptr.toNat + j)).getD 0#64 else 0#64

/-- LM after `j` micro-steps of the LCOPY or LZERO issued in `s`. -/
def State.copyZeroRun (op : Instr) (s : State) : Nat → Memory
  | 0 => s.lm
  | j + 1 => (s.copyZeroRun op j).write (s.rptr.toNat + j) (s.copyZeroLimb op (s.copyZeroRun op j) j)

/-- The accesses of the first `j` micro-steps of LCOPY or LZERO (43_copy_zero.md R174, R178). -/
def copyZeroTrace (op : Instr) (lr la j : Nat) : List Access :=
  if op = .lcopy then copyTrace lr la j else zeroTrace lr j

/-- `s` after its LCOPY or LZERO was accepted and took `j` micro-steps, `j ≤ N`. -/
def State.copyZeroAfter (op : Instr) (s : State) (j : Nat) : State :=
  { s with
    err := .none
    lm := s.copyZeroRun op j
    trace := s.trace ++ copyZeroTrace op s.rptr.toNat s.aptr.toNat j
    eng := { (accept op .run s).eng with
      i := j
      busy := decide (j < s.n.toNat)
      phase := if j < s.n.toNat then .run else .idle } }

/-- After its N micro-steps the command has completed. -/
theorem copyZeroAfter_n_busy (op : Instr) (s : State) : (s.copyZeroAfter op s.n.toNat).eng.busy = false :=
  decide_eq_false (Nat.lt_irrefl _)

theorem copyTrace_succ (lr la j : Nat) :
    copyTrace lr la (j + 1) = copyTrace lr la j ++ [.rd (la + j), .wr (lr + j)] := by
  simp [copyTrace, List.range_succ]

theorem zeroTrace_succ (lr j : Nat) : zeroTrace lr (j + 1) = zeroTrace lr j ++ [.wr (lr + j)] := by
  simp [zeroTrace, List.range_succ]

theorem copyTrace_length (lr la n : Nat) : (copyTrace lr la n).length = 2 * n := by
  simp [copyTrace, List.length_flatMap, Nat.mul_comm]

theorem zeroTrace_length (lr n : Nat) : (zeroTrace lr n).length = n := by simp [zeroTrace]

section
variable {s : State} {j : Nat} (hj : j < s.n.toNat)
include hj

/-- One more micro-step of LCOPY whose source limb holds a value. -/
theorem microStep_copyZeroAfter_lcopy {x : Limb} (hx : (s.copyZeroRun .lcopy j).read (s.aptr.toNat + j) = some x) :
    microStep (s.copyZeroAfter .lcopy j) = .next (s.copyZeroAfter .lcopy (j + 1)) := by
  rw [microStep_lcopy (decide_eq_true hj) rfl (if_pos hj), lcopyStep_eq (s := s.copyZeroAfter .lcopy j) hj hx]
  have hlast : j + 1 < s.n.toNat ↔ j + 1 ≠ s.n.toNat := by omega
  simp [State.copyZeroAfter, State.copyZeroRun, State.copyZeroLimb, copyZeroTrace, copyTrace_succ, hx, hj, hlast]

/-- One more micro-step of LZERO. -/
theorem microStep_copyZeroAfter_lzero :
    microStep (s.copyZeroAfter .lzero j) = .next (s.copyZeroAfter .lzero (j + 1)) := by
  rw [microStep_lzero (decide_eq_true hj) rfl (if_pos hj), lzeroStep_eq (s := s.copyZeroAfter .lzero j) hj]
  have hlast : j + 1 < s.n.toNat ↔ j + 1 ≠ s.n.toNat := by omega
  simp [State.copyZeroAfter, State.copyZeroRun, State.copyZeroLimb, copyZeroTrace, zeroTrace_succ, hj, hlast]

end

/-! ### LM after some micro-steps -/

/-- LM after `j` micro-steps differs from LM before only in the first `j` limbs of r. -/
theorem copyZeroRun_read_outside (op : Instr) (s : State) {j p : Nat}
    (hp : p < s.rptr.toNat ∨ s.rptr.toNat + j ≤ p) : (s.copyZeroRun op j).read p = s.lm.read p := by
  induction j with
  | zero => rfl
  | succ j ih => exact (Memory.read_write_other _ _ (by omega)).trans (ih (by omega))

/-- Limb `i` of r is what micro-step `i` wrote: no later one writes it again. -/
theorem copyZeroRun_read_destination (op : Instr) (s : State) {i j : Nat} (hij : i < j) :
    (s.copyZeroRun op j).read (s.rptr.toNat + i) = some (s.copyZeroLimb op (s.copyZeroRun op i) i) := by
  induction j, hij using Nat.le_induction with
  | base => exact Memory.read_write_same _ _ _
  | succ j hij ih => exact (Memory.read_write_other _ _ (by omega)).trans ih

/-- A limb that holds a value goes on holding one. -/
theorem copyZeroRun_written (op : Instr) {s : State} {p : Nat} (j : Nat) (h : (s.lm.read p).isSome = true) :
    ((s.copyZeroRun op j).read p).isSome = true := by
  induction j with
  | zero => exact h
  | succ j ih => exact Memory.written_write _ _ ih

/-! ### An LCOPY or LZERO that is issued -/

section
variable {op : Instr} {s : State} (hs : s.Idle)
include hs

/-- A command just accepted is one that has taken no micro-step. -/
theorem exec_copyZero_eq_runEngine (hop : op = .lcopy ∨ op = .lzero) (hcode : acceptCode op s = .none) :
    exec op s = runEngine s.grant (s.copyZeroAfter op 0) := by
  obtain ⟨hn, -, -⟩ := acceptCode_eq_none hcode
  rw [exec_accept hs hcode]
  congr 1
  rcases hop with rfl | rfl <;>
    simp [State.copyZeroAfter, State.copyZeroRun, copyZeroTrace, copyTrace, zeroTrace, accept, firstPhase, hn rfl]

/-- An LCOPY that answers leaves the state after the micro-steps granted, or after all that there are. -/
theorem exec_lcopy_inv (hcode : acceptCode .lcopy s = .none) {t : State} (h : exec .lcopy s = .next t) :
    t = s.copyZeroAfter .lcopy (min s.grant s.n.toNat) := by
  rw [exec_copyZero_eq_runEngine hs (.inl rfl) hcode] at h
  refine runEngine_inv_of_microSteps (copyZeroAfter_n_busy .lcopy s) (fun j hj u hu => ?_) h
  have hstep : lcopyStep (s.copyZeroAfter .lcopy j) = .next u :=
    microStep_lcopy (s := s.copyZeroAfter .lcopy j) (decide_eq_true hj) rfl (if_pos hj) ▸ hu
  rcases lcopyStep_inv hstep with ⟨hi, -⟩ | ⟨-, x, hx⟩
  · exact absurd hj hi
  · exact Host.Outcome.next.inj (hu.symm.trans (microStep_copyZeroAfter_lcopy hj hx))

/-- With the source written no micro-step faults, overlaps included: a write unwrites no limb. With its N
micro-steps granted the command completes. -/
theorem exec_lcopy_completes (hcode : acceptCode .lcopy s = .none) (hg : s.n.toNat ≤ s.grant)
    (hw : Written s.lm s.aptr.toNat s.n.toNat) : exec .lcopy s = .next (s.copyZeroAfter .lcopy s.n.toNat) := by
  rw [exec_copyZero_eq_runEngine hs (.inl rfl) hcode,
    runEngine_of_microSteps (copyZeroAfter_n_busy .lcopy s) (fun j hj => ?_), Nat.min_eq_right hg]
  obtain ⟨x, hx⟩ := Option.isSome_iff_exists.mp (copyZeroRun_written .lcopy j (hw j hj))
  exact microStep_copyZeroAfter_lcopy hj hx

/-- No micro-step of LZERO faults. -/
theorem exec_lzero (hcode : acceptCode .lzero s = .none) :
    exec .lzero s = .next (s.copyZeroAfter .lzero (min s.grant s.n.toNat)) := by
  rw [exec_copyZero_eq_runEngine hs (.inr rfl) hcode]
  exact runEngine_of_microSteps (copyZeroAfter_n_busy .lzero s) (fun _ hj => microStep_copyZeroAfter_lzero hj) _

end

/-! ### The traces, and what LZERO leaves -/

/-- Settles O43: every micro-step appends its two accesses, and the completed command took n. -/
theorem copyTraceIsTheFormula : Obligations.CopyTraceIsTheFormula := by
  intro s t hs hcode hg h
  obtain rfl : t = s.copyZeroAfter .lcopy s.n.toNat := Nat.min_eq_right hg ▸ exec_lcopy_inv hs hcode h
  exact ⟨rfl, (List.length_append ..).trans (congrArg _ (copyTrace_length ..))⟩

/-- Settles O45: every micro-step appends its one access, and the completed command took n. -/
theorem zeroTraceIsTheFormula : Obligations.ZeroTraceIsTheFormula := by
  intro s t hs hcode hg h
  obtain rfl := Host.Outcome.next.inj ((exec_lzero hs hcode).symm.trans h)
  rw [Nat.min_eq_right hg]
  exact ⟨rfl, (List.length_append ..).trans (congrArg _ (zeroTrace_length ..))⟩

/-- Settles O44: after min(grant, n) micro-steps as many limbs of r are 0, and no other limb has changed. -/
theorem zeroClearsTheArray : Obligations.ZeroClearsTheArray := by
  intro s hs hcode
  have hmore : min s.grant s.n.toNat < s.n.toNat ↔ s.grant < s.n.toNat := by omega
  exact ⟨_, exec_lzero hs hcode, rfl, decide_eq_decide.mpr hmore,
    fun hg i hi => copyZeroRun_read_destination .lzero s (by omega),
    fun p hp => copyZeroRun_read_outside .lzero s (by omega)⟩

/-! ### What LCOPY leaves in r -/

section
variable {s : State} {i : Nat} (hi : i < s.n.toNat)
include hi

/-- Limb `i` of r is what micro-step `i` found in limb `i` of a. -/
theorem copyRun_read_destination (hw : Written s.lm s.aptr.toNat s.n.toNat) {j : Nat} (hij : i < j) :
    (s.copyZeroRun .lcopy j).read (s.rptr.toNat + i) = (s.copyZeroRun .lcopy i).read (s.aptr.toNat + i) := by
  obtain ⟨x, hx⟩ := Option.isSome_iff_exists.mp (copyZeroRun_written .lcopy i (hw i hi))
  rw [copyZeroRun_read_destination .lcopy s hij, State.copyZeroLimb, if_pos rfl, hx]
  rfl

/-- Outside the band micro-step `i` finds limb `i` of a as it was: each earlier write went to a limb already read or
never read. -/
theorem copyRun_read_source (hband : ¬ InBand s.rptr.toNat s.aptr.toNat s.n.toNat) :
    (s.copyZeroRun .lcopy i).read (s.aptr.toNat + i) = s.lm.read (s.aptr.toNat + i) :=
  copyZeroRun_read_outside .lcopy s (by omega)

/-- In the band micro-step `i` finds an old limb of a before r, and from `d = lr - la` on the limb that micro-step
`i - d` wrote (43_copy_zero.md R175). -/
theorem copyRun_read_source_inBand (hw : Written s.lm s.aptr.toNat s.n.toNat)
    (hband : InBand s.rptr.toNat s.aptr.toNat s.n.toNat) :
    (s.copyZeroRun .lcopy i).read (s.aptr.toNat + i) =
      s.lm.read (s.aptr.toNat + i % (s.rptr.toNat - s.aptr.toNat)) := by
  obtain ⟨hlow, -⟩ := hband
  induction i using Nat.strong_induction_on with
  | h i ih =>
    by_cases hd : i < s.rptr.toNat - s.aptr.toNat
    · rw [Nat.mod_eq_of_lt hd]
      exact copyZeroRun_read_outside .lcopy s (by omega)
    · have hsrc : s.aptr.toNat + i = s.rptr.toNat + (i - (s.rptr.toNat - s.aptr.toNat)) := by omega
      rw [Nat.mod_eq_sub_mod (by omega), hsrc, copyRun_read_destination (by omega) hw (by omega)]
      exact ih _ (by omega) (by omega)

end

/-- Settles O42: limb `i` of r is what micro-step `i` found in limb `i` of a. -/
theorem copyResultInEveryOverlap : Obligations.CopyResultInEveryOverlap := by
  intro s hs hcode hg hw
  exact ⟨_, exec_lcopy_completes hs hcode hg hw, copyZeroAfter_n_busy _ s, rfl,
    fun hband _ hi => (copyRun_read_destination hi hw hi).trans (copyRun_read_source hi hband),
    fun hband _ hi => (copyRun_read_destination hi hw hi).trans (copyRun_read_source_inBand hi hw hband),
    fun _ hp => copyZeroRun_read_outside .lcopy s hp⟩

/-! ### The laws -/

/-- LCOPY between arrays that are the same or disjoint leaves r equal to a. -/
theorem copyRun_destination_eq_source {s : State} (hw : Written s.lm s.aptr.toNat s.n.toNat)
    (hlie : s.rptr = s.aptr ∨ Disjoint s.rptr.toNat s.n.toNat s.aptr.toNat s.n.toNat) {i : Nat} (hi : i < s.n.toNat) :
    (s.copyZeroRun .lcopy s.n.toNat).read (s.rptr.toNat + i) =
      (s.copyZeroRun .lcopy s.n.toNat).read (s.aptr.toNat + i) := by
  rcases hlie with heq | hd
  · rw [heq]
  · rw [copyRun_read_destination hi hw hi, copyRun_read_source hi hd.not_inBand]
    exact (copyZeroRun_read_outside .lcopy s (by omega)).symm

/-- LCOPY between arrays that are already equal changes no limb: each micro-step writes the value that it finds. -/
theorem copyRun_eq_self {s : State} (hwf : s.lm.wf) (hw : Written s.lm s.aptr.toNat s.n.toNat)
    (heq : ∀ i < s.n.toNat, s.lm.read (s.rptr.toNat + i) = s.lm.read (s.aptr.toNat + i)) {j : Nat}
    (hj : j ≤ s.n.toNat) : s.copyZeroRun .lcopy j = s.lm := by
  induction j with
  | zero => rfl
  | succ j ih =>
    obtain ⟨x, hx⟩ := Option.isSome_iff_exists.mp (hw j hj)
    rw [State.copyZeroRun, ih (by omega), State.copyZeroLimb, if_pos rfl, hx]
    exact Memory.write_read_self hwf ((heq j hj).trans hx)

/-- The checks of LZERO are among those of LCOPY. -/
theorem acceptCode_lzero_of_lcopy {s : State} (h : acceptCode .lcopy s = .none) : acceptCode .lzero s = .none := by
  obtain ⟨hn, hr, -⟩ := acceptCode_eq_none h
  have hfit : s.rptr.toNat + s.n.toNat ≤ s.cfg.memLimbs := (of_decide_eq_true hr).1
  simp [acceptCode, rangeOk, hfit, (hn rfl).ne']

/-- Settles O46: neither LZERO nor LCOPY changes a register or unwrites a limb, so that the LCOPY after it is accepted
and completes; that LCOPY leaves r equal to a, and after another LCOPY it finds them so already. -/
theorem zeroThenCopyLaws : Obligations.ZeroThenCopyLaws := by
  intro s hinv hs hcode hg hw hlie
  have hw' (op : Instr) : Written (s.copyZeroRun op s.n.toNat) s.aptr.toNat s.n.toNat := fun i hi =>
    copyZeroRun_written op _ (hw i hi)
  have hsecond (op : Instr) : exec .lcopy (s.copyZeroAfter op s.n.toNat) =
      .next ((s.copyZeroAfter op s.n.toNat).copyZeroAfter .lcopy s.n.toNat) :=
    exec_lcopy_completes (copyZeroAfter_n_busy op s) hcode hg (hw' op)
  refine ⟨⟨_, _, Nat.min_eq_right hg ▸ exec_lzero hs (acceptCode_lzero_of_lcopy hcode), hsecond .lzero,
    fun i hi => copyRun_destination_eq_source (s := s.copyZeroAfter .lzero s.n.toNat) (hw' _) hlie hi⟩, ?_⟩
  have hfirst := exec_lcopy_completes hs hcode hg hw
  obtain ⟨-, -, -, -, hwf, -⟩ := exec_keeps_inv hinv hfirst
  exact ⟨_, _, hfirst, hsecond .lcopy, copyRun_eq_self (s := s.copyZeroAfter .lcopy s.n.toNat) hwf (hw' _)
    (fun i hi => copyRun_destination_eq_source hw hlie hi) le_rfl⟩

end Sys2Proof.Machine

/-!
PROOFS. Exceptions (60_exceptions.md): a command word that is rejected (O17, O18) or ignored (O20), how long OVR stays
set (O20), and that an accepted command completes (O57).
-/
namespace Sys2Proof.Machine

/-! ### Rejection -/

/-- Settles O17: a rejected command is over before any micro-step of its turn, and cmdError changes ERR only. -/
theorem rejectedCommandSetsOnlyErr : Obligations.RejectedCommandSetsOnlyErr :=
  fun _ _ => exec_reject

/-- Issued to an idle block a command leaves its verdict in ERR, accepted or rejected. -/
theorem issue_idle_err {s : State} (op : Instr) (first : Phase) (verdict : Err) (hb : s.eng.busy = false) :
    (issue op first verdict s).err = verdict := by
  by_cases hv : verdict = .none
  · rw [hv, issue_accept _ _ hb, accept_err]
  · rw [issue_reject _ _ hb hv, cmdError_err]

/-- A legal command word on an idle block, with no micro-step after it, leaves its verdict in ERR. -/
theorem exec_idle_err (i : Instr) {s : State} (hb : s.eng.busy = false) (hg : s.grant = 0) :
    ∃ t, exec i s = .next t ∧ t.err = acceptCode i s :=
  ⟨_, (exec_eq i s).trans (finish_zero ((issue_grant ..).trans hg)), issue_idle_err _ _ _ hb⟩

/-- Settles O18: an illegal word is rejected before any check, and the verdict on a legal one is acceptCode, whose
LEN check is on the number in N. -/
theorem firstFailingCheckGivesErr : Obligations.FirstFailingCheckGivesErr := by
  intro s v hs hv
  rw [step_cmdWrite hv]
  cases hd : decode v with
  | error e => exact ⟨_, cmdWrite_illegal (s := { s with grant := 0 }) hs (by simp [hd]), rfl⟩
  | ok i =>
    rw [cmdWrite_ok _ hd]
    obtain ⟨t, ht, herr⟩ := exec_idle_err i (s := { s with grant := 0 }) hs rfl
    have hlen : s.n = 0#64 ↔ s.n.toNat = 0 := BitVec.toNat_inj.symm
    refine ⟨t, ht, herr.trans ?_⟩
    simp only [hlen]
    rfl

/-! ### OVR -/

/-- The turn's micro-steps leave OVR. -/
theorem finish_ovr {s t : State} (h : finish s = .next t) : t.ovr = s.ovr := (congrArg State.ovr (runEngine_frame h) :)

/-- Issuing a command never clears OVR. -/
theorem issue_keeps_ovr {s : State} (op : Instr) (first : Phase) (verdict : Err) (ho : s.ovr = true) :
    (issue op first verdict s).ovr = true := by
  cases hb : s.eng.busy with
  | true => rw [issue_busy _ _ _ hb, overrun_ovr]
  | false =>
    by_cases hv : verdict = .none
    · rw [hv, issue_accept _ _ hb, accept_ovr, ho]
    · rw [issue_reject _ _ hb hv, cmdError_ovr, ho]

theorem issueIllegal_keeps_ovr {s : State} (ho : s.ovr = true) : (issueIllegal s).ovr = true := by
  unfold issueIllegal
  split
  · rfl
  · exact ho

/-- No write to CMD clears OVR. -/
theorem cmdWrite_keeps_ovr {v : Limb} {s t : State} (ho : s.ovr = true) (h : cmdWrite v s = .next t) :
    t.ovr = true := by
  cases hd : decode v with
  | ok i =>
    rw [cmdWrite_ok s hd, exec_eq] at h
    exact (finish_ovr h).trans (issue_keeps_ovr _ _ _ ho)
  | error e =>
    rw [cmdWrite_error s hd] at h
    exact (finish_ovr h).trans (issueIllegal_keeps_ovr ho)

theorem writeOperand_keeps_ovr {stored s : State} (ho : stored.ovr = true) : (writeOperand stored s).ovr = true := by
  unfold writeOperand
  split
  · rfl
  · exact ho

/-- No write to a slot other than CMD clears OVR, but one to STATUS with bit 8 = 1 (10_state.md R24). -/
theorem writeSlot_keeps_ovr {slot : Slot} {v : Limb} {s : State} (ho : s.ovr = true)
    (hv : slot = .status → v.getLsbD 8 = false) : (writeSlot slot v s).ovr = true := by
  cases slot with
  | status =>
    rw [writeSlot, writeStatus, hv rfl]
    exact ho
  | a | b | cin | rptr | aptr | bptr | n | k | idx => exact writeOperand_keeps_ovr ho
  | cmd | res | cout | cfg | memsz | reserved => exact ho

/-- No transaction clears OVR but a Reset and a write to STATUS with bit 8 = 1, which both widths bring to the port. -/
theorem transact_keeps_ovr {op : HostOp} {s t : State} (ho : s.ovr = true) (hreset : op ≠ .reset)
    (hstatus : ∀ v, op = .regWrite .status v → v.getLsbD 8 = false) (h : transact op s = .next t) : t.ovr = true := by
  cases op with
  | regWrite slot v =>
    rw [transact_regWrite] at h
    by_cases hc : slot = .cmd
    · subst hc
      exact cmdWrite_keeps_ovr ho h
    · have hbits : 8 < s.cfg.width.bits := by cases s.cfg.width <;> decide
      rw [hostRegWrite_slot _ _ hc] at h
      refine (finish_ovr h).trans (writeSlot_keeps_ovr ho fun hs => ?_)
      rw [narrow_getLsbD _ _ hbits]
      exact hstatus v (hs ▸ rfl)
  | regRead slot => exact (finish_ovr h).trans ho
  | memWrite p v =>
    obtain ⟨u, hu, hf⟩ := andThen_eq_next.mp h
    rcases hostMemWrite_inv hu with ⟨-, rfl⟩ | ⟨-, rfl⟩ <;> exact (finish_ovr hf).trans ho
  | memRead p =>
    obtain ⟨u, hu, hf⟩ := andThen_eq_next.mp h
    obtain ⟨v, rfl, -⟩ := hostMemRead_inv hu
    exact (finish_ovr hf).trans ho
  | reset => exact absurd rfl hreset

/-- Settles O20: CMD is one of the slots that a write while busy only sets OVR for; and OVR lies outside the frame of
a micro-step. -/
theorem commandWhileBusyIsIgnored : Obligations.CommandWhileBusyIsIgnored := by
  obtain ⟨hbusy, -, -⟩ := busyRegisterWritesOnlySetOverrun
  exact ⟨fun s v hb => hbusy s v .cmd hb (.head _),
    fun s _ _ g ho h hreset hstatus => transact_keeps_ovr (s := { s with grant := g }) ho hreset hstatus h,
    fun _ _ ho h => (congrArg State.ovr (microStep_frame h) :).trans ho⟩

/-! ### Completion -/

theorem addSubAfter_n_phase (op : Instr) (s : State) : (s.addSubAfter op s.n.toNat).eng.phase = .idle :=
  if_neg (Nat.lt_irrefl _)

theorem copyZeroAfter_n_phase (op : Instr) (s : State) : (s.copyZeroAfter op s.n.toNat).eng.phase = .idle :=
  if_neg (Nat.lt_irrefl _)

theorem selectAfter_total_phase (s : State) : (s.selectAfter (s.n.toNat * (s.k.toNat + 1))).eng.phase = .idle := by
  have hzero : ¬ s.n.toNat * (s.k.toNat + 1) < s.n.toNat := (Nat.le_mul_of_pos_right _ (Nat.succ_pos _)).not_gt
  exact (if_neg hzero).trans (if_neg (Nat.lt_irrefl _))

/-- With its N * (K + 1) micro-steps granted LSEL completes. -/
theorem exec_lsel_completes {s : State} (hs : s.Idle) (hcode : acceptCode .lsel s = .none)
    (hg : s.n.toNat * (s.k.toNat + 1) ≤ s.grant) (hw : Written s.lm s.aptr.toNat (s.n.toNat * s.k.toNat)) :
    exec .lsel s = .next (s.selectAfter (s.n.toNat * (s.k.toNat + 1))) := by
  rw [exec_lsel hs hcode hw, Nat.min_eq_right hg]

/-- Settles O57: each family's state after all of its command's micro-steps has BUSY = 0, phase IDLE and ERR = NONE. -/
theorem acceptedCommandsComplete : Obligations.AcceptedCommandsComplete := by
  intro i s hs hcode hw hg
  cases i with
  | adc | sbb | add | sub => exact ⟨_, exec_word_completes rfl hs hg, rfl, rfl, rfl⟩
  | ladd | lsub =>
    obtain ⟨ha, hb⟩ := hw
    exact ⟨_, exec_addSub_completes (by decide) hs hcode ha hb hg, addSubAfter_n_busy _ s, addSubAfter_n_phase _ s, rfl⟩
  | lsel => exact ⟨_, exec_lsel_completes hs hcode hg hw, selectAfter_total_busy s, selectAfter_total_phase s, rfl⟩
  | lcopy => exact ⟨_, exec_lcopy_completes hs hcode hg hw, copyZeroAfter_n_busy _ s, copyZeroAfter_n_phase _ s, rfl⟩
  | lzero =>
    exact ⟨_, Nat.min_eq_right hg ▸ exec_lzero hs hcode, copyZeroAfter_n_busy _ s, copyZeroAfter_n_phase _ s, rfl⟩

end Sys2Proof.Machine

/-!
PROOFS. Reset and the schedule (70_reset_and_hazards.md): a turn is a transaction and then its micro-steps (O6); what a
Reset leaves (O8), also in the middle of LADD or LSUB (O9); and power-up meets the invariant (O49).
-/
namespace Sys2Proof.Machine

/-! ### Turns and grants -/

/-- `s` in a turn that allows `g` micro-steps. -/
def State.withGrant (g : Nat) (s : State) : State := { s with grant := g }

/-- No micro-step reads or writes how many micro-steps the turn allows. -/
theorem runEngine_withGrant (g j : Nat) (s : State) :
    runEngine j (s.withGrant g) = andThen (runEngine j s) fun t => .next (t.withGrant g) := by
  have hs : s.withGrant g = s.surroundedBy (s.withGrant g) := rfl
  rw [hs, runEngine_ignoresSurroundings]
  cases h : runEngine j s with
  | next t => rw [andThen_next, andThen_next, runEngine_frame h]; rfl
  | fault e => rfl
  | refused e => rfl

theorem issue_withGrant (g : Nat) (op : Instr) (first : Phase) (verdict : Err) (s : State) :
    issue op first verdict (s.withGrant g) = (issue op first verdict s).withGrant g := by
  cases hb : s.eng.busy with
  | true => rw [issue_busy _ _ _ hb, issue_busy _ _ _ (by exact hb)]; rfl
  | false =>
    by_cases hv : verdict = .none
    · rw [hv, issue_accept _ _ hb, issue_accept _ _ (by exact hb)]; rfl
    · rw [issue_reject _ _ hb hv, issue_reject _ _ (by exact hb) hv]; rfl

theorem issueIllegal_withGrant (g : Nat) (s : State) :
    issueIllegal (s.withGrant g) = (issueIllegal s).withGrant g :=
  (apply_ite (State.withGrant g) (s.eng.busy = true) (overrun s) (cmdError .illegal s)).symm

theorem writeOperand_withGrant (g : Nat) (stored s : State) :
    writeOperand (stored.withGrant g) (s.withGrant g) = (writeOperand stored s).withGrant g :=
  (apply_ite (State.withGrant g) (s.eng.busy = true) (overrun s) stored).symm

theorem writeSlot_withGrant (slot : Slot) (v : Limb) (g : Nat) (s : State) :
    writeSlot slot v (s.withGrant g) = (writeSlot slot v s).withGrant g := by
  cases slot with
  | cmd | res | cout | cfg | memsz | reserved => rfl
  | status => exact (apply_ite (State.withGrant g) (v.getLsbD 8 = true) { s with ovr := false } s).symm
  | a => exact writeOperand_withGrant g { s with a := v } s
  | b => exact writeOperand_withGrant g { s with b := v } s
  | cin => exact writeOperand_withGrant g { s with cin := v.getLsbD 0 } s
  | rptr => exact writeOperand_withGrant g { s with rptr := v } s
  | aptr => exact writeOperand_withGrant g { s with aptr := v } s
  | bptr => exact writeOperand_withGrant g { s with bptr := v } s
  | n => exact writeOperand_withGrant g { s with n := v } s
  | k => exact writeOperand_withGrant g { s with k := v } s
  | idx => exact writeOperand_withGrant g { s with idx := v } s

/-- A write to CMD is an update that does not look at the grant, and then the micro-steps of the turn. -/
theorem cmdWrite_withGrant (v : Limb) (s : State) :
    ∃ u : State, ∀ g, cmdWrite v (s.withGrant g) = finish (u.withGrant g) := by
  cases hd : decode v with
  | ok i =>
    refine ⟨issue i (firstPhase i) (acceptCode i s) s, fun g => ?_⟩
    rw [cmdWrite_ok _ hd, exec_eq, ← issue_withGrant]
    rfl
  | error e => exact ⟨issueIllegal s, fun g => by rw [cmdWrite_error _ hd, issueIllegal_withGrant]⟩

theorem hostMemRead_withGrant (p : Limb) (g : Nat) (s : State) :
    hostMemRead p (s.withGrant g) = andThen (hostMemRead p s) fun t => .next (t.withGrant g) := by
  have hcfg : (s.withGrant g).cfg = s.cfg := rfl
  have heng : (s.withGrant g).eng = s.eng := rfl
  have hlm : (s.withGrant g).lm = s.lm := rfl
  rw [hostMemRead, hostMemRead, hcfg, heng, hlm]
  split
  · rfl
  · split
    · rfl
    · split <;> rfl

theorem hostMemWrite_withGrant (p v : Limb) (g : Nat) (s : State) :
    hostMemWrite p v (s.withGrant g) = andThen (hostMemWrite p v s) fun t => .next (t.withGrant g) := by
  have hcfg : (s.withGrant g).cfg = s.cfg := rfl
  have heng : (s.withGrant g).eng = s.eng := rfl
  rw [hostMemWrite, hostMemWrite, hcfg, heng]
  split
  · rfl
  · split <;> rfl

/-- A transaction is something that does not look at the grant, and then the micro-steps of the turn. -/
theorem transact_withGrant (op : HostOp) (s : State) :
    ∃ r : Result, ∀ g, transact op (s.withGrant g) = andThen r fun u => finish (u.withGrant g) := by
  cases op with
  | regWrite slot v =>
    by_cases hc : slot = .cmd
    · subst hc
      obtain ⟨u, hu⟩ := cmdWrite_withGrant (narrow s.cfg.width v.toNat) s
      exact ⟨.next u, hu⟩
    · refine ⟨.next (writeSlot slot (narrow s.cfg.width v.toNat) s), fun g => ?_⟩
      rw [transact_regWrite, hostRegWrite_slot _ _ hc, writeSlot_withGrant]
      rfl
  | regRead slot =>
    refine ⟨.next { s with returned := some (readSlot s slot) }, fun g => ?_⟩
    rw [transact_regRead, State.withGrant, readSlot_grant]
    rfl
  | memWrite p v =>
    refine ⟨hostMemWrite (narrow s.cfg.width p.toNat) (narrow s.cfg.width v.toNat) s, fun g => ?_⟩
    rw [transact_memWrite, hostMemWrite_withGrant, andThen_assoc]
    rfl
  | memRead p =>
    refine ⟨hostMemRead (narrow s.cfg.width p.toNat) s, fun g => ?_⟩
    rw [transact_memRead, hostMemRead_withGrant, andThen_assoc]
    rfl
  | reset => exact ⟨.next (resetBlock s), fun g => rfl⟩

/-- A turn's micro-steps with one more granted. -/
theorem finish_withGrant_succ (g : Nat) (u : State) : finish (u.withGrant (g + 1)) =
    andThen (andThen (finish (u.withGrant g)) microStep) fun t => .next (t.withGrant (g + 1)) :=
  calc finish (u.withGrant (g + 1))
      = runEngine (g + 1) ((u.withGrant g).withGrant (g + 1)) := rfl
    _ = andThen (runEngine (g + 1) (u.withGrant g)) fun t => .next (t.withGrant (g + 1)) := runEngine_withGrant ..
    _ = _ := by rw [runEngine_succ_last]; rfl

/-- Settles O6: a turn is a transaction and then a run of as many micro-steps as it grants. -/
theorem grantedMicroStepsCompose : Obligations.GrantedMicroStepsCompose := by
  intro s op g
  obtain ⟨r, hr⟩ := transact_withGrant op s
  calc step (s.withTurn op (g + 1))
      = andThen r fun u => finish (u.withGrant (g + 1)) := hr (g + 1)
    _ = andThen r fun u =>
          andThen (andThen (finish (u.withGrant g)) microStep) fun t => .next (t.withGrant (g + 1)) := by
        simp only [finish_withGrant_succ]
    _ = andThen (andThen (andThen r fun u => finish (u.withGrant g)) microStep) fun t =>
          .next (t.withGrant (g + 1)) := by simp only [andThen_assoc]
    _ = andThen (andThen (step (s.withTurn op g)) microStep) fun t => .next { t with grant := g + 1 } := by
        rw [← hr g]
        rfl

/-! ### Reset -/

/-- Settles O8: the registers of a block after Reset are those of its power-up; LM is outside what Reset writes. -/
theorem resetTransaction : Obligations.ResetTransaction := by
  intro s g
  refine ⟨_, transact_reset { s with grant := g }, fun slot hcfg hmemsz => ?_, rfl, rfl, rfl, rfl, rfl, rfl, rfl⟩
  cases slot with
  | cfg => exact absurd rfl hcfg
  | memsz => exact absurd rfl hmemsz
  | status => exact BitVec.eq_of_toNat_eq (statusWord_toNat _)
  | _ => rfl

/-- A block in range meets the invariant at power-up: every register and latch is 0, the ENGINE is idle and no limb
holds a value. -/
theorem powerUp_inv {cfg : Config} (hcfg : cfg.Wf) : (State.powerUp cfg).Inv := by
  have z := zero_fits cfg.width
  exact ⟨hcfg, ⟨z, z, z, z, z, z, z, z, z, z⟩, ⟨z, z, z, z, z, z, z, z⟩, rfl, Memory.wf_nil, nofun⟩

theorem built_wf : Config.built.Wf := by decide

/-- Settles O49: State.reset is the power-up of a build in range. -/
theorem powerUpMeetsTheInvariant : Obligations.PowerUpMeetsTheInvariant :=
  ⟨fun _ => powerUp_inv, powerUp_inv built_wf⟩

/-! ### Reset in the middle of LADD or LSUB -/

/-- What a micro-step of LADD or LSUB wrote to limb `i` of r stays: no later one writes the limb again. -/
theorem addSubRun_read_destination (op : Instr) (s : State) {i j : Nat} (hij : i < j) :
    (s.addSubRun op j).1.read (s.rptr.toNat + i) = (s.addSubRun op (i + 1)).1.read (s.rptr.toNat + i) := by
  induction j, hij using Nat.le_induction with
  | base => rfl
  | succ j hij ih => exact (Memory.read_write_other _ _ (by omega)).trans ih

/-- What LADD or LSUB writes does not depend on how many micro-steps the turn grants. -/
theorem addSubRun_grant (op : Instr) (s : State) (g j : Nat) :
    State.addSubRun op { s with grant := g } j = s.addSubRun op j := by
  induction j with
  | zero => rfl
  | succ j ih => rw [State.addSubRun, ih]; rfl

/-- Settles O9: Reset leaves LM as the first `j` micro-steps made it, and the others write behind it. -/
theorem resetLeavesTheCompletedPrefix : Obligations.ResetLeavesTheCompletedPrefix := by
  intro op s t u j g hop hs hcode hj ht hu
  have ht := exec_addSub_inv (s := { s with grant := s.n.toNat }) hop hs hcode ht
  have hu := exec_addSub_inv (s := { s with grant := j }) hop hs hcode hu
  have htlm : t.lm = (s.addSubRun op s.n.toNat).1 := by
    rw [ht, Nat.min_self, State.addSubAfter, addSubRun_grant]
  have hulm : u.lm = (s.addSubRun op j).1 := by
    rw [hu, Nat.min_eq_left hj.le, State.addSubAfter, addSubRun_grant]
  refine ⟨_, transact_reset { u with grant := g }, fun i hi => ?_, fun p hp => ?_, rfl, rfl, rfl⟩
  · rw [resetBlock_lm, htlm, hulm, addSubRun_read_destination op s hi, addSubRun_read_destination op s (hi.trans hj)]
  · rw [resetBlock_lm, hulm]
    exact addSubRun_read_outside op s hp

end Sys2Proof.Machine

/-!
PROOFS. While a command runs and when it is over (70_reset_and_hazards.md): RES and COUT appear at completion (O55), and
every command takes the micro-steps and makes the accesses of the table of R233 (O56).
-/
namespace Sys2Proof.Machine

/-! ### RES and COUT while a command runs -/

/-- From `s` to `t` RES and COUT are as they were, unless no command runs in `t`. -/
def State.KeepsResultsWhileBusy (s t : State) : Prop := t.eng.busy = true → t.res = s.res ∧ t.cout = s.cout

/-- A word command's micro-step completes it. -/
theorem wordStep_keepsResultsWhileBusy {r : Limb × Bool} {s t : State} (h : wordStep r s = .next t) :
    s.KeepsResultsWhileBusy t := by
  obtain rfl := Host.Outcome.next.inj h
  exact nofun

/-- LADD and LSUB write COUT in the micro-step that completes them. -/
theorem addSubStep_keepsResultsWhileBusy {prim : Width → Limb → Limb → Bool → Limb × Bool} {s t : State}
    (h : addSubStep prim s = .next t) : s.KeepsResultsWhileBusy t := by
  rcases addSubStep_inv h with ⟨-, rfl⟩ | ⟨hi, x, y, hx, hy⟩
  · exact fun _ => ⟨rfl, rfl⟩
  · obtain rfl := Host.Outcome.next.inj ((addSubStep_eq hi hx hy).symm.trans h)
    intro hb
    have hlast : s.eng.i + 1 ≠ s.eng.ln.toNat := fun hlast => by simp [hlast] at hb
    exact ⟨rfl, if_neg hlast⟩

/-- A change inside an array leaves RES and COUT. -/
theorem State.ChangedOnlyIn.keepsResultsWhileBusy {base n : Nat} {s t : State} (h : s.ChangedOnlyIn base n t) :
    s.KeepsResultsWhileBusy t := by
  obtain ⟨h, -⟩ := h
  exact fun _ => ⟨(congrArg State.res h :), (congrArg State.cout h :)⟩

theorem lselZeroStep_keepsResultsWhileBusy {s t : State} (h : lselZeroStep s = .next t) :
    s.KeepsResultsWhileBusy t := by
  obtain rfl := Host.Outcome.next.inj ((lselZeroStep_eq s).symm.trans h)
  exact fun _ => ⟨rfl, rfl⟩

theorem lselScanStep_keepsResultsWhileBusy {s t : State} (h : lselScanStep s = .next t) :
    s.KeepsResultsWhileBusy t := by
  obtain ⟨x, cur, hx, hc⟩ := lselScanStep_inv h
  obtain rfl := Host.Outcome.next.inj ((lselScanStep_eq hx hc).symm.trans h)
  exact fun _ => ⟨rfl, rfl⟩

/-- Only a micro-step that completes its command writes RES or COUT (70_reset_and_hazards.md R225, R226). -/
theorem microStep_keepsResultsWhileBusy {s t : State} (h : microStep s = .next t) : s.KeepsResultsWhileBusy t := by
  rcases microStep_cases h with rfl | ⟨-, ⟨-, hrun⟩ | ⟨-, ⟨-, h⟩ | ⟨-, h⟩⟩⟩
  · exact fun _ => ⟨rfl, rfl⟩
  · rcases hrun with ⟨-, h⟩ | ⟨-, h⟩ | ⟨-, h⟩ | ⟨-, h⟩ | ⟨-, h⟩ | ⟨-, h⟩ | ⟨-, h⟩ | ⟨-, h⟩
    · exact wordStep_keepsResultsWhileBusy h
    · exact wordStep_keepsResultsWhileBusy h
    · exact wordStep_keepsResultsWhileBusy h
    · exact wordStep_keepsResultsWhileBusy h
    · exact addSubStep_keepsResultsWhileBusy h
    · exact addSubStep_keepsResultsWhileBusy h
    · exact (lcopyStep_changedOnlyIn h).keepsResultsWhileBusy
    · exact (lzeroStep_changedOnlyIn h).keepsResultsWhileBusy
  · exact lselZeroStep_keepsResultsWhileBusy h
  · exact lselScanStep_keepsResultsWhileBusy h

/-- No micro-step starts a command. -/
theorem microStep_busy_of_busy {s t : State} (h : microStep s = .next t) (ht : t.eng.busy = true) :
    s.eng.busy = true := by
  cases hs : s.eng.busy with
  | true => rfl
  | false =>
    obtain rfl := Host.Outcome.next.inj ((microStep_idle hs).symm.trans h)
    exact hs.symm.trans ht

/-- Settles O55: the command was running before each micro-step, so that no micro-step of the run completed it. -/
theorem resultsAppearOnlyAtCompletion : Obligations.ResultsAppearOnlyAtCompletion := by
  intro s t j h ht
  induction j generalizing t with
  | zero =>
    obtain rfl := Host.Outcome.next.inj h
    exact ⟨rfl, rfl⟩
  | succ j ih =>
    obtain ⟨u, hu, hlast⟩ := andThen_eq_next.mp (runEngine_succ_last j s ▸ h)
    obtain ⟨hres, hcout⟩ := microStep_keepsResultsWhileBusy hlast ht
    obtain ⟨hres', hcout'⟩ := ih u hu (microStep_busy_of_busy hlast ht)
    exact ⟨hres.trans hres', hcout.trans hcout'⟩

/-! ### The reads of a trace -/

theorem addSubTrace_countP_isRead (lr la lb n : Nat) : (addSubTrace lr la lb n).countP Access.isRead = 2 * n := by
  induction n with
  | zero => rfl
  | succ n ih =>
    rw [addSubTrace_succ, List.countP_append, ih]
    rfl

theorem copyTrace_countP_isRead (lr la n : Nat) : (copyTrace lr la n).countP Access.isRead = n := by
  induction n with
  | zero => rfl
  | succ n ih =>
    rw [copyTrace_succ, List.countP_append, ih]
    rfl

theorem zeroTrace_countP_isRead (lr n : Nat) : (zeroTrace lr n).countP Access.isRead = 0 := by
  induction n with
  | zero => rfl
  | succ n ih =>
    rw [zeroTrace_succ, List.countP_append, ih]
    rfl

/-- ZERO reads nothing, and each pass of SCAN reads two limbs in each of its `ln` micro-steps. -/
theorem selectTrace_countP_isRead (lr la ln k : Nat) :
    (selectTrace lr la ln k).countP Access.isRead = 2 * ln * k := by
  induction k with
  | zero =>
    have hzero : selectTrace lr la ln 0 = zeroTrace lr ln := List.append_nil _
    rw [hzero, zeroTrace_countP_isRead, Nat.mul_zero]
  | succ k ih =>
    have hpass : ((List.range ln).flatMap fun i =>
        [Access.rd (la + k * ln + i), .rd (lr + i), .wr (lr + i)]).countP Access.isRead = 2 * ln :=
      addSubTrace_countP_isRead lr (la + k * ln) lr ln
    rw [selectTrace_succ, List.countP_append, ih, hpass, Nat.mul_add_one]

/-! ### Counts per command -/

/-- With the source written an LCOPY answers, whatever its turn grants. -/
theorem exec_lcopy {s : State} (hs : s.Idle) (hcode : acceptCode .lcopy s = .none)
    (hw : Written s.lm s.aptr.toNat s.n.toNat) :
    exec .lcopy s = .next (s.copyZeroAfter .lcopy (min s.grant s.n.toNat)) := by
  rw [exec_copyZero_eq_runEngine hs (.inl rfl) hcode]
  refine runEngine_of_microSteps (copyZeroAfter_n_busy .lcopy s) (fun j hj => ?_) _
  obtain ⟨x, hx⟩ := Option.isSome_iff_exists.mp (copyZeroRun_written .lcopy j (hw j hj))
  exact microStep_copyZeroAfter_lcopy hj hx

/-- The row of the table of 70_reset_and_hazards.md R233 for `i`, from what `exec i s` answers. -/
def CountsAsTabled (i : Instr) (s : State) : Prop :=
  ∃ t evs, exec i s = .next t ∧
    t.eng.busy = decide (s.grant < microStepCount i s.n.toNat s.k.toNat) ∧
    t.trace = s.trace ++ evs ∧
    (microStepCount i s.n.toNat s.k.toNat ≤ s.grant →
      evs.length = readCount i s.n.toNat s.k.toNat + writeCount i s.n.toNat s.k.toNat ∧
      evs.countP Access.isRead = readCount i s.n.toNat s.k.toNat)

theorem decide_min_lt (g m : Nat) : decide (min g m < m) = decide (g < m) := decide_eq_decide.mpr (by omega)

section
variable {s : State} (hs : s.Idle)
include hs

theorem word_countsAsTabled {i : Instr} (hi : i = .adc ∨ i = .sbb ∨ i = .add ∨ i = .sub) : CountsAsTabled i s := by
  obtain ⟨t, ht, hbusy, htrace, -⟩ := wordCommandTakesOneMicroStep i s hi hs
  have htrace : t.trace = s.trace ++ [] := htrace.trans (List.append_nil _).symm
  rcases hi with rfl | rfl | rfl | rfl <;> exact ⟨t, [], ht, hbusy, htrace, fun _ => ⟨rfl, rfl⟩⟩

theorem addSub_countsAsTabled {op : Instr} (hop : op = .ladd ∨ op = .lsub) (hcode : acceptCode op s = .none)
    (ha : Written s.lm s.aptr.toNat s.n.toNat) (hb : Written s.lm s.bptr.toNat s.n.toNat) : CountsAsTabled op s := by
  have hsteps : microStepCount op s.n.toNat s.k.toNat = s.n.toNat := by rcases hop with rfl | rfl <;> rfl
  have hreads : readCount op s.n.toNat s.k.toNat = 2 * s.n.toNat := by rcases hop with rfl | rfl <;> rfl
  have hwrites : writeCount op s.n.toNat s.k.toNat = s.n.toNat := by rcases hop with rfl | rfl <;> rfl
  unfold CountsAsTabled
  rw [hsteps, hreads, hwrites]
  refine ⟨_, _, exec_addSub hop hs hcode ha hb, decide_min_lt _ _, rfl, fun hg => ?_⟩
  rw [Nat.min_eq_right hg, addSubTrace_length, addSubTrace_countP_isRead]
  exact ⟨by omega, rfl⟩

theorem lsel_countsAsTabled (hcode : acceptCode .lsel s = .none)
    (hw : Written s.lm s.aptr.toNat (s.n.toNat * s.k.toNat)) : CountsAsTabled .lsel s := by
  refine ⟨_, _, exec_lsel hs hcode hw, decide_min_lt _ _, rfl, fun (hg : s.n.toNat * (s.k.toNat + 1) ≤ s.grant) => ?_⟩
  rw [Nat.min_eq_right hg, flatMap_selectAccesses, selectTrace_length, selectTrace_countP_isRead, readCount, writeCount]
  exact ⟨by ring, rfl⟩

theorem lcopy_countsAsTabled (hcode : acceptCode .lcopy s = .none) (hw : Written s.lm s.aptr.toNat s.n.toNat) :
    CountsAsTabled .lcopy s := by
  refine ⟨_, _, exec_lcopy hs hcode hw, decide_min_lt _ _, rfl, fun (hg : s.n.toNat ≤ s.grant) => ?_⟩
  rw [Nat.min_eq_right hg]
  exact ⟨(copyTrace_length ..).trans (Nat.two_mul _), copyTrace_countP_isRead ..⟩

theorem lzero_countsAsTabled (hcode : acceptCode .lzero s = .none) : CountsAsTabled .lzero s := by
  refine ⟨_, _, exec_lzero hs hcode, decide_min_lt _ _, rfl, fun (hg : s.n.toNat ≤ s.grant) => ?_⟩
  rw [Nat.min_eq_right hg]
  exact ⟨(zeroTrace_length ..).trans (Nat.zero_add _).symm, zeroTrace_countP_isRead ..⟩

end

/-- Settles O56: the table row by row; a rejected command changes ERR only. -/
theorem stepAndEventCounts : Obligations.StepAndEventCounts := by
  intro i s hs
  refine ⟨fun hcode hw => ?_, fun hcode => ⟨_, exec_reject hs hcode, hs, rfl⟩⟩
  change CountsAsTabled i s
  cases i with
  | adc | sbb | add | sub => exact word_countsAsTabled hs (by decide)
  | ladd | lsub =>
    obtain ⟨ha, hb⟩ := hw
    exact addSub_countsAsTabled hs (by decide) hcode ha hb
  | lsel => exact lsel_countsAsTabled hs hcode hw
  | lcopy => exact lcopy_countsAsTabled hs hcode hw
  | lzero => exact lzero_countsAsTabled hs hcode

end Sys2Proof.Machine

/-!
PROOFS. Constant time (70_reset_and_hazards.md R232): two states that agree on all that is public are one state with two
choices of the secrets; no micro-step and no write to CMD lets those choices show in public state (O50).
-/
namespace Sys2Proof.Machine

/-! ### The state that is not public -/

/-- `g` with the ENGINE fields that are not public taken from `h`. -/
def Engine.withSecrets (g h : Engine) : Engine :=
  { g with lidx := h.lidx, wa := h.wa, wb := h.wb, wc := h.wc, c := h.c }

/-- `s` with everything that PublicEq does not compare taken from `u`. -/
def State.withSecrets (s u : State) : State :=
  { s with
    a := u.a
    b := u.b
    cin := u.cin
    res := u.res
    cout := u.cout
    idx := u.idx
    lm := u.lm
    returned := u.returned
    inputs := u.inputs
    eng := s.eng.withSecrets u.eng }

theorem Engine.PublicEq.eq_withSecrets {g h : Engine} (hgh : g.PublicEq h) : h = g.withSecrets h := by
  obtain ⟨hbusy, hop, hphase, hi, he, hlr, hla, hlb, hln, hlk⟩ := hgh
  rw [Engine.withSecrets, hbusy, hop, hphase, hi, he, hlr, hla, hlb, hln, hlk]

theorem Engine.PublicEq.of_eq {g h : Engine} (hgh : h = g.withSecrets h) : g.PublicEq h := by
  rw [hgh]
  exact ⟨rfl, rfl, rfl, rfl, rfl, rfl, rfl, rfl, rfl, rfl⟩

theorem Engine.PublicEq.ite {g g' h h' : Engine} (c : Prop) [Decidable c] (hgh : g.PublicEq h)
    (hgh' : g'.PublicEq h') : Engine.PublicEq (if c then g else g') (if c then h else h') := by
  split
  · exact hgh
  · exact hgh'

/-- Agreeing on public state is being the same state with other secrets. -/
theorem PublicEq.exists_secrets {s u : State} (h : PublicEq s u) : ∃ w, u = s.withSecrets w := by
  obtain ⟨hcfg, herr, hovr, hrptr, haptr, hbptr, hn, hk, heng, htrace, hgrant⟩ := h
  refine ⟨u, ?_⟩
  rw [State.withSecrets, ← heng.eq_withSecrets, hcfg, herr, hovr, hrptr, haptr, hbptr, hn, hk, htrace, hgrant]

theorem PublicEq.of_eng {s u : State} (h : u = { s.withSecrets u with eng := u.eng }) (heng : s.eng.PublicEq u.eng) :
    PublicEq s u := by
  rw [h]
  exact ⟨rfl, rfl, rfl, rfl, rfl, rfl, rfl, rfl, heng, rfl, rfl⟩

theorem PublicEq.of_eq {s u : State} (h : u = s.withSecrets u) : PublicEq s u := by
  have heng : u.eng = s.eng.withSecrets u.eng := congrArg State.eng h
  exact .of_eng (by rw [heng]; exact h) (.of_eq heng)

/-- Two runs of `f` that answer keep public state equal, whatever the secrets are. -/
def KeepsPublicEq (f : State → Result) : Prop :=
  ∀ s u t v : State, PublicEq s u → f s = .next t → f u = .next v → PublicEq t v

/-- The results are all that depends on the primitive and on its operands. -/
theorem wordStep_keepsPublicEq {r q : Limb × Bool} {s u t v : State} (h : PublicEq s u) (ht : wordStep r s = .next t)
    (hv : wordStep q u = .next v) : PublicEq t v := by
  obtain ⟨w, rfl⟩ := h.exists_secrets
  obtain rfl := Host.Outcome.next.inj ht
  obtain rfl := Host.Outcome.next.inj hv
  exact .of_eq rfl

theorem addSubStep_keepsPublicEq (prim : Width → Limb → Limb → Bool → Limb × Bool) :
    KeepsPublicEq (addSubStep prim) := by
  intro s u t v h ht hv
  obtain ⟨w, rfl⟩ := h.exists_secrets
  rcases addSubStep_inv ht with ⟨hi, rfl⟩ | ⟨hi, x, y, hx, hy⟩ <;>
    rcases addSubStep_inv hv with ⟨hi', rfl⟩ | ⟨hi', x', y', hx', hy'⟩
  · exact h
  · exact absurd hi' hi
  · exact absurd hi hi'
  · obtain rfl := Host.Outcome.next.inj ((addSubStep_eq hi hx hy).symm.trans ht)
    obtain rfl := Host.Outcome.next.inj ((addSubStep_eq hi' hx' hy').symm.trans hv)
    exact .of_eq rfl

theorem lcopyStep_keepsPublicEq : KeepsPublicEq lcopyStep := by
  intro s u t v h ht hv
  obtain ⟨w, rfl⟩ := h.exists_secrets
  rcases lcopyStep_inv ht with ⟨hi, rfl⟩ | ⟨hi, x, hx⟩ <;> rcases lcopyStep_inv hv with ⟨hi', rfl⟩ | ⟨hi', x', hx'⟩
  · exact h
  · exact absurd hi' hi
  · exact absurd hi hi'
  · obtain rfl := Host.Outcome.next.inj ((lcopyStep_eq hi hx).symm.trans ht)
    obtain rfl := Host.Outcome.next.inj ((lcopyStep_eq hi' hx').symm.trans hv)
    exact .of_eq rfl

theorem lzeroStep_keepsPublicEq : KeepsPublicEq lzeroStep := by
  intro s u t v h ht hv
  obtain ⟨w, rfl⟩ := h.exists_secrets
  by_cases hi : s.eng.i < s.eng.ln.toNat
  · obtain rfl := Host.Outcome.next.inj ((lzeroStep_eq hi).symm.trans ht)
    obtain rfl := Host.Outcome.next.inj ((lzeroStep_eq (s := s.withSecrets w) hi).symm.trans hv)
    exact .of_eq rfl
  · obtain rfl := Host.Outcome.next.inj ((lzeroStep_done hi).symm.trans ht)
    obtain rfl := Host.Outcome.next.inj ((lzeroStep_done (s := s.withSecrets w) hi).symm.trans hv)
    exact h

theorem lselZeroStep_keepsPublicEq : KeepsPublicEq lselZeroStep := by
  intro s u t v h ht hv
  obtain ⟨w, rfl⟩ := h.exists_secrets
  obtain rfl := Host.Outcome.next.inj ((lselZeroStep_eq s).symm.trans ht)
  obtain rfl := Host.Outcome.next.inj ((lselZeroStep_eq (s.withSecrets w)).symm.trans hv)
  exact .of_eng rfl (.ite _ (.of_eq rfl) (.of_eq rfl))

/-- IDX decides which of two limbs is written, and so nothing public. -/
theorem lselScanStep_keepsPublicEq : KeepsPublicEq lselScanStep := by
  intro s u t v h ht hv
  obtain ⟨w, rfl⟩ := h.exists_secrets
  obtain ⟨x, cur, hx, hc⟩ := lselScanStep_inv ht
  obtain ⟨x', cur', hx', hc'⟩ := lselScanStep_inv hv
  obtain rfl := Host.Outcome.next.inj ((lselScanStep_eq hx hc).symm.trans ht)
  obtain rfl := Host.Outcome.next.inj ((lselScanStep_eq hx' hc').symm.trans hv)
  exact .of_eng rfl (.ite _ (.ite _ (.of_eq rfl) (.of_eq rfl)) (.of_eq rfl))

/-- A micro-step's accesses, its advance and whether it completes depend on public state only. -/
theorem microStep_keepsPublicEq : KeepsPublicEq microStep := by
  intro s u t v h
  obtain ⟨w, rfl⟩ := h.exists_secrets
  have hb : (s.withSecrets w).eng.busy = s.eng.busy := rfl
  have ho : (s.withSecrets w).eng.op = s.eng.op := rfl
  have hp : (s.withSecrets w).eng.phase = s.eng.phase := rfl
  rw [microStep, microStep, hb, ho, hp]
  have stay (ht : (.next s : Result) = .next t) (hv : (.next (s.withSecrets w) : Result) = .next v) :
      PublicEq t v := Host.Outcome.next.inj ht ▸ Host.Outcome.next.inj hv ▸ h
  split
  · split
    · exact wordStep_keepsPublicEq h
    · exact wordStep_keepsPublicEq h
    · exact wordStep_keepsPublicEq h
    · exact wordStep_keepsPublicEq h
    · exact addSubStep_keepsPublicEq adcW _ _ _ _ h
    · exact addSubStep_keepsPublicEq sbbW _ _ _ _ h
    · exact lselZeroStep_keepsPublicEq _ _ _ _ h
    · exact lselScanStep_keepsPublicEq _ _ _ _ h
    · exact lcopyStep_keepsPublicEq _ _ _ _ h
    · exact lzeroStep_keepsPublicEq _ _ _ _ h
    · exact stay
  · exact stay

theorem runEngine_keepsPublicEq (j : Nat) : KeepsPublicEq (runEngine j) := by
  intro s u t v h ht hv
  induction j generalizing s u with
  | zero =>
    obtain rfl := Host.Outcome.next.inj ht
    obtain rfl := Host.Outcome.next.inj hv
    exact h
  | succ j ih =>
    obtain ⟨s', hs, ht⟩ := andThen_eq_next.mp ht
    obtain ⟨u', hu, hv⟩ := andThen_eq_next.mp hv
    exact ih _ _ (microStep_keepsPublicEq _ _ _ _ h hs hu) ht hv

/-- Public states allow the same number of micro-steps. -/
theorem finish_keepsPublicEq : KeepsPublicEq finish := by
  intro s u t v h ht hv
  obtain ⟨-, -, -, -, -, -, -, -, -, -, hgrant⟩ := id h
  rw [finish, ← hgrant] at hv
  exact runEngine_keepsPublicEq _ _ _ _ _ h ht hv

/-! ### A word written to CMD -/

/-- The verdict reads public state only, but for LSEL's INDEX check. -/
theorem acceptCode_publicEq {i : Instr} {s u : State} (h : PublicEq s u)
    (hidx : i = .lsel → (s.idx.toNat < s.k.toNat ↔ u.idx.toNat < u.k.toNat)) : acceptCode i u = acceptCode i s := by
  obtain ⟨w, rfl⟩ := h.exists_secrets
  cases i with
  | adc | sbb | add | sub | ladd | lsub | lcopy | lzero => rfl
  | lsel =>
    have hcheck := not_congr (hidx rfl)
    rw [Nat.not_lt, Nat.not_lt] at hcheck
    simp only [acceptCode, ← hcheck]
    rfl

/-- With the same verdict the same command is ignored, rejected or accepted. -/
theorem issue_publicEq {s u : State} (op : Instr) (first : Phase) (verdict : Err) (h : PublicEq s u) :
    PublicEq (issue op first verdict s) (issue op first verdict u) := by
  obtain ⟨w, rfl⟩ := h.exists_secrets
  cases hb : s.eng.busy with
  | true => rw [issue_busy _ _ _ hb, issue_busy _ _ _ (by exact hb)]; exact .of_eq rfl
  | false =>
    by_cases hv : verdict = .none
    · rw [hv, issue_accept _ _ hb, issue_accept _ _ (by exact hb)]; exact .of_eq rfl
    · rw [issue_reject _ _ hb hv, issue_reject _ _ (by exact hb) hv]; exact .of_eq rfl

theorem issueIllegal_publicEq {s u : State} (h : PublicEq s u) : PublicEq (issueIllegal s) (issueIllegal u) := by
  obtain ⟨w, rfl⟩ := h.exists_secrets
  have hb : (s.withSecrets w).eng.busy = s.eng.busy := rfl
  rw [issueIllegal, issueIllegal, hb]
  split <;> exact .of_eq rfl

theorem cmdWrite_publicEq {word : Limb} {s u t v : State} (h : PublicEq s u)
    (hidx : word = encode .lsel → (s.idx.toNat < s.k.toNat ↔ u.idx.toNat < u.k.toNat))
    (ht : cmdWrite word s = .next t) (hv : cmdWrite word u = .next v) : PublicEq t v := by
  cases hd : decode word with
  | ok i =>
    have hcode : acceptCode i u = acceptCode i s :=
      acceptCode_publicEq h fun hi => hidx (hi ▸ decode_eq_ok.mp hd)
    rw [cmdWrite_ok _ hd, exec_eq] at ht hv
    rw [hcode] at hv
    exact finish_keepsPublicEq _ _ _ _ (issue_publicEq _ _ _ h) ht hv
  | error e =>
    rw [cmdWrite_error _ hd] at ht hv
    exact finish_keepsPublicEq _ _ _ _ (issueIllegal_publicEq h) ht hv

/-- Settles O50: both steps are the same CMD write with the same number of micro-steps after it. -/
theorem constantTime : Obligations.ConstantTime := by
  intro s₁ s₂ t₁ t₂ v g h hv hidx h₁ h₂
  obtain ⟨w, rfl⟩ := h.exists_secrets
  have hgranted : PublicEq { s₁ with grant := g } { s₁.withSecrets w with grant := g } := .of_eq rfl
  rw [step_cmdWrite hv] at h₁
  rw [step_cmdWrite (s := s₁.withSecrets w) hv] at h₂
  exact cmdWrite_publicEq hgranted hidx h₁ h₂

end Sys2Proof.Machine
